-- ==== Sys2Proof/Word.lean ====
section
/-! DEFINITION. The machine's words: the 64-bit item of every store (10_state.md R20, decision D3), the 64-bit words of commands and
responses (30_encoding.md R70), the 8-bit context token, opcode and code, and the 32-bit integer argument (R71). Indices, sizes and
lengths are mathematical integers (00_scope.md R6) and so are `Nat` and `Int`, never words. -/

namespace Sys2Proof

/-- A 64-bit command, payload, status or data word (R70); an item of a store is one such word (R20). -/
abbrev Word := BitVec 64

/-- One stored item, 64 opaque bits to a store, a binary64 to the DL and AP units (R20, R9). -/
abbrev Item := BitVec 64

/-- An opaque execution-context identifier, `CTXW` = 8 bits (R4, R71). -/
abbrev Ctx := BitVec 8

/-- The integer argument field of a header, `IDXW` = 32 bits (R4, R71). -/
abbrev Arg := BitVec 32

/-- The greatest legal capacity, `2^31 - 1` (R4, decision D5). -/
abbrev maxCap : Nat := 2147483647

end Sys2Proof
end

