-- ==== Sys2Proof/Syntax.lean ====
section
/-! DEFINITION. The command set `MINLIB-CORE-1` (30_encoding.md R75), one constructor for each row of opcode_table.json. Every
command carries the context token of its header. `rsRead` is the source's second name for `RS.READH` (R80): it has the same words,
so the decoder never answers it (log 13). -/

namespace Sys2Proof

/-- The three units of CORE (00_scope.md R4, 10_state.md R22, R23, R25). -/
inductive UnitId where
  | rs
  | dl
  | ap
deriving DecidableEq, Repr

/-- One command with its operands assembled (R73, R74). -/
inductive Instr where
  /-- `RS.WRITE`, R110 -/
  | rsWrite (ctx : Ctx) (v : Item)
  /-- `RS.WRITEB`, R111: `N` is the length of the block -/
  | rsWriteb (ctx : Ctx) (vs : List Item)
  /-- `RS.READH`, R112 -/
  | rsReadh (ctx : Ctx) (n : Nat)
  /-- `RS.READ`, R80: another name of `RS.READH` -/
  | rsRead (ctx : Ctx) (n : Nat)
  /-- `RS.READT`, R113 -/
  | rsReadt (ctx : Ctx) (n : Nat)
  /-- `RS.READAT`, R114: the offset is signed -/
  | rsReadat (ctx : Ctx) (k : Int)
  /-- `RS.RESIZE`, R115 -/
  | rsResize (ctx : Ctx) (n : Nat)
  /-- `RS.CLEAR`, R116 -/
  | rsClear (ctx : Ctx)
  /-- `RS.ITEMAT`, R117 -/
  | rsItemat (ctx : Ctx) (p : Nat)
  /-- `DL.SETDELAY`, R130 -/
  | dlSetdelay (ctx : Ctx) (d : Item)
  /-- `DL.PROCESS`, R131 -/
  | dlProcess (ctx : Ctx) (x : Item)
  /-- `DL.CLEAR`, R132 -/
  | dlClear (ctx : Ctx)
  /-- `AP.SETLEN`, R150 -/
  | apSetlen (ctx : Ctx) (d : Nat)
  /-- `AP.SETGAIN`, R151 -/
  | apSetgain (ctx : Ctx) (g : Item)
  /-- `AP.PROCESS`, R152 -/
  | apProcess (ctx : Ctx) (x : Item)
  /-- `AP.CLEAR`, R153 -/
  | apClear (ctx : Ctx)
deriving DecidableEq, Repr

end Sys2Proof
end

