-- ==== Sys2Proof/WellFormed.lean ====
section
/-! DEFINITION. Which terms of `Instr` are commands of CORE: those whose integer operand fits the 32-bit `arg` field as R73 reads it
(lengths, sizes and indices unsigned, the offset of `RS.READAT` signed). Contexts and items are words and need no check. -/

namespace Sys2Proof

/-- An unsigned operand of R73: `0 .. 2^32 - 1`. -/
abbrev FitsUnsigned (n : Nat) : Prop := n < 4294967296

/-- The signed operand of R73: `-2^31 .. 2^31 - 1`. -/
abbrev FitsSigned (k : Int) : Prop := -2147483648 ≤ k ∧ k < 2147483648

/-- The operands fit their fields (R72, R73). -/
def Instr.wf : Instr → Bool
  | .rsWrite _ _ => true
  | .rsWriteb _ vs => decide (FitsUnsigned vs.length)
  | .rsReadh _ n => decide (FitsUnsigned n)
  | .rsRead _ n => decide (FitsUnsigned n)
  | .rsReadt _ n => decide (FitsUnsigned n)
  | .rsReadat _ k => decide (FitsSigned k)
  | .rsResize _ n => decide (FitsUnsigned n)
  | .rsClear _ => true
  | .rsItemat _ p => decide (FitsUnsigned p)
  | .dlSetdelay _ _ => true
  | .dlProcess _ _ => true
  | .dlClear _ => true
  | .apSetlen _ d => decide (FitsUnsigned d)
  | .apSetgain _ _ => true
  | .apProcess _ _ => true
  | .apClear _ => true

end Sys2Proof
end

