-- ==== Sys2Proof/Decode.lean ====
section
/-! DEFINITION. Decoding and encoding of commands (30_encoding.md R71 to R75, R78). `decode` is total on every header and every
payload and refuses by name; `encode` writes the words of a command from the same tables. -/

namespace Sys2Proof

/-! ### The opcode map (R75) -/

/-- The fifteen opcodes of R75. -/
inductive Opcode where
  | rsWrite | rsWriteb | rsReadh | rsReadt | rsReadat | rsResize | rsClear | rsItemat
  | dlSetdelay | dlProcess | dlClear
  | apSetlen | apSetgain | apProcess | apClear
deriving DecidableEq, Repr

/-- The four formats of R72. -/
inductive Format where
  | h0 | ha | hp | hb
deriving DecidableEq, Repr

/-- Every opcode of R75, in the table's order. -/
def Opcode.all : List Opcode :=
  [.rsWrite, .rsWriteb, .rsReadh, .rsReadt, .rsReadat, .rsResize, .rsClear, .rsItemat,
   .dlSetdelay, .dlProcess, .dlClear, .apSetlen, .apSetgain, .apProcess, .apClear]

/-- The opcode column of R75. -/
def Opcode.byte : Opcode → BitVec 8
  | .rsWrite => 0x01#8
  | .rsWriteb => 0x02#8
  | .rsReadh => 0x03#8
  | .rsReadt => 0x04#8
  | .rsReadat => 0x05#8
  | .rsResize => 0x06#8
  | .rsClear => 0x07#8
  | .rsItemat => 0x08#8
  | .dlSetdelay => 0x10#8
  | .dlProcess => 0x11#8
  | .dlClear => 0x12#8
  | .apSetlen => 0x20#8
  | .apSetgain => 0x21#8
  | .apProcess => 0x22#8
  | .apClear => 0x23#8

/-- The opcode a header's opcode field names; every other value is reserved (R75, R78 condition 1). -/
def Opcode.ofByte (b : BitVec 8) : Option Opcode :=
  Opcode.all.find? (fun op => op.byte == b)

/-- The format column of R75. -/
def Opcode.format : Opcode → Format
  | .rsWrite => .hp
  | .rsWriteb => .hb
  | .rsReadh => .ha
  | .rsReadt => .ha
  | .rsReadat => .ha
  | .rsResize => .ha
  | .rsClear => .h0
  | .rsItemat => .ha
  | .dlSetdelay => .hp
  | .dlProcess => .hp
  | .dlClear => .h0
  | .apSetlen => .ha
  | .apSetgain => .hp
  | .apProcess => .hp
  | .apClear => .h0

/-- The unit an opcode names: `opcode[7:4]` is 0 for RS, 1 for DL, 2 for AP (R71). -/
def Opcode.unit : Opcode → UnitId
  | .rsWrite | .rsWriteb | .rsReadh | .rsReadt | .rsReadat | .rsResize | .rsClear | .rsItemat => .rs
  | .dlSetdelay | .dlProcess | .dlClear => .dl
  | .apSetlen | .apSetgain | .apProcess | .apClear => .ap

/-- The mask column of R75: the `arg` bits take part exactly when the format demands a zero `arg`. -/
def Opcode.mask (op : Opcode) : Word :=
  match op.format with
  | .h0 | .hp => 0xFF00FFFFFFFFFFFF#64
  | .ha | .hb => 0xFF00FFFF00000000#64

/-- The match column of R75. -/
def Opcode.pattern : Opcode → Word
  | .rsWrite => 0x0100000000000000#64
  | .rsWriteb => 0x0200000000000000#64
  | .rsReadh => 0x0300000000000000#64
  | .rsReadt => 0x0400000000000000#64
  | .rsReadat => 0x0500000000000000#64
  | .rsResize => 0x0600000000000000#64
  | .rsClear => 0x0700000000000000#64
  | .rsItemat => 0x0800000000000000#64
  | .dlSetdelay => 0x1000000000000000#64
  | .dlProcess => 0x1100000000000000#64
  | .dlClear => 0x1200000000000000#64
  | .apSetlen => 0x2000000000000000#64
  | .apSetgain => 0x2100000000000000#64
  | .apProcess => 0x2200000000000000#64
  | .apClear => 0x2300000000000000#64

/-! ### The header word (R71) -/

/-- `H[63:56]` -/
def headerOpcode (h : Word) : BitVec 8 := h.extractLsb' 56 8

/-- `H[55:48]` -/
def headerCtx (h : Word) : Ctx := h.extractLsb' 48 8

/-- `H[47:32]`, reserved: must be zero -/
def headerRsv (h : Word) : BitVec 16 := h.extractLsb' 32 16

/-- `H[31:0]` -/
def headerArg (h : Word) : Arg := h.extractLsb' 0 32

/-- The header with these fields and zero reserved bits. -/
def header (op : Opcode) (ctx : Ctx) (arg : Arg) : Word :=
  (op.byte ++ ctx ++ 0#16 ++ arg : BitVec (8 + 8 + 16 + 32))

/-! ### Strict decode (R78) -/

/-- Why `decode` answers `ILLEGAL`: the four conditions of R78, by name. -/
inductive Illegal where
  /-- condition 1: `H[63:56]` is none of the fifteen opcodes -/
  | reservedOpcode
  /-- condition 2: `H[47:32]` is not zero -/
  | reservedBits
  /-- condition 3: format `H0` or `HP` and `H[31:0]` is not zero -/
  | argNotZero
  /-- condition 4: the payload has the wrong length -/
  | payloadLength
deriving DecidableEq, Repr

/-- Format `H0` (R72): `arg` zero, no payload. -/
def decodeH0 (arg : Arg) (p : List Word) (i : Instr) : Except Illegal Instr :=
  if arg = 0#32 then
    match p with
    | [] => .ok i
    | _ :: _ => .error .payloadLength
  else .error .argNotZero

/-- Format `HA` (R72): an integer operand, no payload. -/
def decodeHA (p : List Word) (i : Instr) : Except Illegal Instr :=
  match p with
  | [] => .ok i
  | _ :: _ => .error .payloadLength

/-- Format `HP` (R72): `arg` zero, one payload word. -/
def decodeHP (arg : Arg) (p : List Word) (f : Item → Instr) : Except Illegal Instr :=
  if arg = 0#32 then
    match p with
    | [v] => .ok (f v)
    | [] => .error .payloadLength
    | _ :: _ :: _ => .error .payloadLength
  else .error .argNotZero

/-- Format `HB` (R72): `arg` is the number of payload words. -/
def decodeHB (arg : Arg) (p : List Word) (f : List Item → Instr) : Except Illegal Instr :=
  if p.length = arg.toNat then .ok (f p) else .error .payloadLength

/-- The command an opcode and its operands make, or why there is none (R72 to R75). -/
def decodeOperands (op : Opcode) (ctx : Ctx) (arg : Arg) (p : List Word) : Except Illegal Instr :=
  match op with
  | .rsWrite => decodeHP arg p (Instr.rsWrite ctx)
  | .rsWriteb => decodeHB arg p (Instr.rsWriteb ctx)
  | .rsReadh => decodeHA p (.rsReadh ctx arg.toNat)
  | .rsReadt => decodeHA p (.rsReadt ctx arg.toNat)
  | .rsReadat => decodeHA p (.rsReadat ctx arg.toInt)
  | .rsResize => decodeHA p (.rsResize ctx arg.toNat)
  | .rsClear => decodeH0 arg p (.rsClear ctx)
  | .rsItemat => decodeHA p (.rsItemat ctx arg.toNat)
  | .dlSetdelay => decodeHP arg p (Instr.dlSetdelay ctx)
  | .dlProcess => decodeHP arg p (Instr.dlProcess ctx)
  | .dlClear => decodeH0 arg p (.dlClear ctx)
  | .apSetlen => decodeHA p (.apSetlen ctx arg.toNat)
  | .apSetgain => decodeHP arg p (Instr.apSetgain ctx)
  | .apProcess => decodeHP arg p (Instr.apProcess ctx)
  | .apClear => decodeH0 arg p (.apClear ctx)

/-- `decode(H, P)` of R78: total, strict, refusing by name. -/
def decode (h : Word) (p : List Word) : Except Illegal Instr :=
  match Opcode.ofByte (headerOpcode h) with
  | none => .error .reservedOpcode
  | some op =>
    if headerRsv h = 0#16 then decodeOperands op (headerCtx h) (headerArg h) p
    else .error .reservedBits

/-! ### Encode -/

/-- The opcode of a command; `RS.READ` is `RS.READH` (R80). -/
def Instr.opcode : Instr → Opcode
  | .rsWrite _ _ => .rsWrite
  | .rsWriteb _ _ => .rsWriteb
  | .rsReadh _ _ => .rsReadh
  | .rsRead _ _ => .rsReadh
  | .rsReadt _ _ => .rsReadt
  | .rsReadat _ _ => .rsReadat
  | .rsResize _ _ => .rsResize
  | .rsClear _ => .rsClear
  | .rsItemat _ _ => .rsItemat
  | .dlSetdelay _ _ => .dlSetdelay
  | .dlProcess _ _ => .dlProcess
  | .dlClear _ => .dlClear
  | .apSetlen _ _ => .apSetlen
  | .apSetgain _ _ => .apSetgain
  | .apProcess _ _ => .apProcess
  | .apClear _ => .apClear

/-- The context token a command carries. -/
def Instr.ctx : Instr → Ctx
  | .rsWrite c _ => c
  | .rsWriteb c _ => c
  | .rsReadh c _ => c
  | .rsRead c _ => c
  | .rsReadt c _ => c
  | .rsReadat c _ => c
  | .rsResize c _ => c
  | .rsClear c => c
  | .rsItemat c _ => c
  | .dlSetdelay c _ => c
  | .dlProcess c _ => c
  | .dlClear c => c
  | .apSetlen c _ => c
  | .apSetgain c _ => c
  | .apProcess c _ => c
  | .apClear c => c

/-- The unit a command belongs to (R71). -/
def Instr.unit (i : Instr) : UnitId := i.opcode.unit

/-- The `arg` field of a command (R72, R73). -/
def Instr.arg : Instr → Arg
  | .rsWrite _ _ => 0#32
  | .rsWriteb _ vs => BitVec.ofNat 32 vs.length
  | .rsReadh _ n => BitVec.ofNat 32 n
  | .rsRead _ n => BitVec.ofNat 32 n
  | .rsReadt _ n => BitVec.ofNat 32 n
  | .rsReadat _ k => BitVec.ofInt 32 k
  | .rsResize _ n => BitVec.ofNat 32 n
  | .rsClear _ => 0#32
  | .rsItemat _ p => BitVec.ofNat 32 p
  | .dlSetdelay _ _ => 0#32
  | .dlProcess _ _ => 0#32
  | .dlClear _ => 0#32
  | .apSetlen _ d => BitVec.ofNat 32 d
  | .apSetgain _ _ => 0#32
  | .apProcess _ _ => 0#32
  | .apClear _ => 0#32

/-- The payload of a command (R72, R74). -/
def Instr.payload : Instr → List Word
  | .rsWrite _ v => [v]
  | .rsWriteb _ vs => vs
  | .rsReadh _ _ => []
  | .rsRead _ _ => []
  | .rsReadt _ _ => []
  | .rsReadat _ _ => []
  | .rsResize _ _ => []
  | .rsClear _ => []
  | .rsItemat _ _ => []
  | .dlSetdelay _ d => [d]
  | .dlProcess _ x => [x]
  | .dlClear _ => []
  | .apSetlen _ _ => []
  | .apSetgain _ g => [g]
  | .apProcess _ x => [x]
  | .apClear _ => []

/-- The words `(H, P)` of a command (R70 to R75). -/
def encode (i : Instr) : Word × List Word :=
  (header i.opcode i.ctx i.arg, i.payload)

/-- The command the decoder answers for a command's words: itself, but `RS.READH` for its second name `RS.READ` (R80). -/
def Instr.canon : Instr → Instr
  | .rsRead c n => .rsReadh c n
  | i => i

/-! ### The words as spec/opcode_table.json numbers them -/

/-- How many payload words the header asks for (R72); none for a reserved opcode. -/
def payloadCount (h : Word) : Nat :=
  match Opcode.ofByte (headerOpcode h) with
  | none => 0
  | some op =>
    match op.format with
    | .h0 | .ha => 0
    | .hp => 1
    | .hb => (headerArg h).toNat

/-- The next `n` 64-bit words of `w`, the lowest bits first. -/
def wordsOf : Nat → Nat → List Word
  | 0, _ => []
  | n + 1, w => BitVec.ofNat 64 w :: wordsOf n (w / 18446744073709551616)

/-- The header and the payload of the command whose bits are `w`: the header is the first word, the bits above `nbits` are zero. -/
def tableCommand (nbits w : Nat) : Word × List Word :=
  let bits := w % 2 ^ nbits
  let h : Word := BitVec.ofNat 64 bits
  (h, wordsOf (payloadCount h) (bits / 18446744073709551616))

end Sys2Proof

/-- The command this decoder reads from the bits `w`, numbered as spec/opcode_table.json numbers them: bit 0 is the least significant
bit of the header word, a payload word's bits count on from bit 64. -/
def Sys2Proof.decodeTableWord (nbits w : Nat) : Option Sys2Proof.Instr :=
  let c := Sys2Proof.tableCommand nbits w
  (Sys2Proof.decode c.1 c.2).toOption
end

