-- ==== Sys2Proof/Machine/Sample.lean ====
section
/-! DEFINITION. What a 64-bit item is as a sample: the fields and the value of an IEEE 754 binary64 (00_scope.md R9; layout
30_encoding.md R74; log 10), and the property every interpolator must have (41_delayline.md R137), which is stated of such values.

A finite binary64 is an integer multiple of `2^-1074`. Its magnitude is kept here as that integer, a `Nat` of at most 2098 bits, so
that sums and products are exact. -/

namespace Sys2Proof.Machine

/-- The magnitude of 1.0: how many units of `2^-1074` make 1. -/
@[irreducible] def oneMag : Nat := 2 ^ 1074

/-- The first magnitude beyond every finite binary64, `2^1024` in units of `2^-1074`; it stands for infinity. -/
@[irreducible] def infMag : Nat := 2 ^ 2098

/-! ### Fields (R74) -/

/-- The sign, bit 63. -/
def signBit (w : Item) : Bool := w.msb

/-- The exponent field, bits 62:52. -/
def expField (w : Item) : Nat := w.toNat / 4503599627370496 % 2048

/-- The fraction field, bits 51:0. -/
def fracField (w : Item) : Nat := w.toNat % 4503599627370496

/-- A NaN: exponent all ones, fraction not zero. -/
def isNaN (w : Item) : Bool := expField w == 2047 && fracField w != 0

/-- An infinity: exponent all ones, fraction zero. -/
def isInf (w : Item) : Bool := expField w == 2047 && fracField w == 0

/-- Neither an infinity nor a NaN. -/
def isFinite (w : Item) : Bool := expField w != 2047

/-- The magnitude in units of `2^-1074`. For an infinity this is `infMag`; it is not used of a NaN. -/
def mag (w : Item) : Nat :=
  if expField w = 0 then fracField w
  else (4503599627370496 + fracField w) * 2 ^ (expField w - 1)

/-- The signed value in units of `2^-1074`, infinities beyond every finite value. -/
def val (w : Item) : Int := if signBit w then -(mag w : Int) else (mag w : Int)

/-! ### What an interpolator must satisfy -/

/-- P_INTERP0 (41_delayline.md R137), required of every interpolator: for finite taps and the fraction `+0` the result equals tap 0 as a
number. -/
def PInterp0 (f : Item → Item → Item → Item → Item → Item) : Prop :=
  ∀ a b c d, isFinite a = true → isFinite b = true → isFinite c = true → isFinite d = true →
    isFinite (f a b c d 0#64) = true ∧ val (f a b c d 0#64) = val b

/-- `INTERP(NONE)` (R134): tap 0, the fraction and the other taps ignored. -/
def interpNone (_a b _c _d _f : Item) : Item := b

/-- `NONE` has P_INTERP0 trivially (R137); a legal interpolator exists. -/
theorem interpNone_pInterp0 : PInterp0 interpNone := fun _ _ _ _ _ hb _ _ => ⟨hb, rfl⟩

end Sys2Proof.Machine
end

