-- ==== Sys2Proof/Config.lean ====
section
/-! DEFINITION. What an implementation fixes (00_scope.md R4) and the values the spec leaves free (93_implementation_defined.md U1, U4).
The parameters of R4 that are numbers are plain data, carried in State and written by no step, so that a statement about every state
is a statement about every configuration (log 1). The interpolation function and the identity of a NaN are constants with no body. -/

namespace Sys2Proof

/-- `DL_MODE`: the configured interpolation (R4). -/
inductive DlMode where
  | none
  | linear
  | cubic4
deriving DecidableEq, Repr

/-- The implementation parameters of R4, but for `INTERP_CUBIC4`, which is a function (`Interpolator`, `Config.interpCubic4`). -/
structure Config where
  /-- `RS_CAP` -/
  rsCap : Nat
  /-- `RS_SIZE0` -/
  rsSize0 : Nat
  /-- `DL_MAXD` -/
  dlMaxd : Nat
  /-- `DL_GUARD` -/
  dlGuard : Nat
  /-- `DL_MODE` -/
  dlMode : DlMode
  /-- `DL_DELAY0`, a binary64 -/
  dlDelay0 : Item
  /-- `AP_CAP` -/
  apCap : Nat
  /-- `AP_LEN0` -/
  apLen0 : Nat
  /-- `AP_GAIN0`, a binary64 -/
  apGain0 : Item
deriving DecidableEq, Repr

/-- The configuration CFG-A of 95_test_vectors.md section 0, which `State.reset` takes.
DESIGN CHOICE, unsafe (log 1): R4 leaves every parameter OPEN. -/
def Config.cfgA : Config where
  rsCap := 8
  rsSize0 := 8
  dlMaxd := 4
  dlGuard := 3
  dlMode := .linear
  dlDelay0 := 0#64
  apCap := 6
  apLen0 := 5
  apGain0 := 0#64

/-- The legal range of the parameter `INTERP_CUBIC4` (R4, R136): a total function of the four taps `s[-1], s[0], s[1], s[2]` and the
fraction, holding no state, with property P_INTERP0 (R137). A function without the property is no value of this type: it builds no
block (R5; log 4). The default values only show that the type is not empty. -/
structure Interpolator where
  /-- the function -/
  fn : Item → Item → Item → Item → Item → Item := Machine.interpNone
  /-- P_INTERP0 -/
  legal : Machine.PInterp0 fn := by exact Machine.interpNone_pInterp0
deriving Inhabited

/-- `INTERP_CUBIC4` (R4, R136): some legal interpolator. The spec gives no formula, so none is given here, and nothing is known of it
but P_INTERP0 (U1; log 4). -/
opaque Config.interpCubic4 : Interpolator

/-- How many binary64 words are NaNs: two signs, `2^52 - 1` nonzero fractions. -/
abbrev nanCount : Nat := 9007199254740990

/-- The free value of U4: which NaN the `k`-th draw gives, by its number among all NaNs.
Nothing constrains it (log 3). -/
opaque Config.freeNaN : Nat → Fin 9007199254740990

end Sys2Proof
end

