-- ==== Sys2Proof/Machine/Binary64.lean ====
section
/-! DEFINITION. Sample arithmetic: IEEE 754 binary64 addition, subtraction and multiplication, each rounded once with roundTiesToEven,
the ordered comparisons, `f64` and `floor` (00_scope.md R9; layout 30_encoding.md R74). The standard itself is general knowledge to
the spec (K1): PRESUMED (log 10).

The magnitude of a finite binary64 is an integer (Sample.lean), so every operation is: compute exactly, round once (`roundMag`), pack
(`packMag`). -/

namespace Sys2Proof.Machine

/-! ### Signs -/

/-- The word with the sign bit flipped. -/
def fneg (w : Item) : Item := w ^^^ 0x8000000000000000#64

/-! ### Rounding and packing -/

/-- `num / den` rounded to an integer, ties to even. -/
def halfEven (num den : Nat) : Nat :=
  let q := num / den
  let r := num % den
  if 2 * r < den then q
  else if den < 2 * r then q + 1
  else q + q % 2

/-- The spacing of the binary64 numbers around a magnitude whose integer part is `n`: 1 below `2^53`, then a power of two. -/
def quantum (n : Nat) : Nat := 2 ^ (n.log2 - 52)

/-- The magnitude `num / den` rounded to 53 significant bits, ties to even, the exponent not bounded above. -/
def roundMag (num den : Nat) : Nat :=
  let q := quantum (num / den)
  halfEven num (den * q) * q

/-- The 63 low bits of a magnitude that 53 significant bits can hold; `infMag` and beyond give the infinity. -/
def packBody (n : Nat) : Nat :=
  if n < 4503599627370496 then n
  else if infMag ≤ n then 9218868437227405312
  else (n.log2 - 52) * 4503599627370496 + n / 2 ^ (n.log2 - 52)

/-- The word with this sign and this magnitude. -/
def packMag (neg : Bool) (n : Nat) : Item :=
  BitVec.ofNat 64 (if neg then 9223372036854775808 + packBody n else packBody n)

/-- The binary64 nearest `num / den`, ties to even. -/
def ofRatio (neg : Bool) (num den : Nat) : Item := packMag neg (roundMag (num * oneMag) den)

/-! ### NaNs (U4) -/

/-- The NaN with this number: first the `2^52 - 1` with sign 0, then those with sign 1. -/
def nanOfIndex (i : Fin nanCount) : Item :=
  if i.val < 4503599627370495 then BitVec.ofNat 64 (9218868437227405313 + i.val)
  else BitVec.ofNat 64 (18442240474082181121 + (i.val - 4503599627370495))

/-- The NaN the `k`-th draw gives: any NaN, a free value (U4; log 3). -/
def drawNaN (k : Nat) : Item := nanOfIndex (Config.freeNaN k)

/-! ### Operations (R9)

`k` numbers the draw that says which NaN the result is, should it be one. -/

/-- `fadd`: an exact sum of zero is `+0`, but `-0` when both operands are negative. -/
def fadd (k : Nat) (a b : Item) : Item :=
  if isNaN a || isNaN b then drawNaN k
  else if isInf a then (if isInf b && signBit a != signBit b then drawNaN k else a)
  else if isInf b then b
  else
    let z := val a + val b
    if z = 0 then (if signBit a && signBit b then 0x8000000000000000#64 else 0#64)
    else packMag (decide (z < 0)) (roundMag z.natAbs 1)

/-- `fsub` -/
def fsub (k : Nat) (a b : Item) : Item := fadd k a (fneg b)

/-- `fmul` -/
def fmul (k : Nat) (a b : Item) : Item :=
  let neg := signBit a != signBit b
  if isNaN a || isNaN b then drawNaN k
  else if isInf a || isInf b then (if mag a = 0 ∨ mag b = 0 then drawNaN k else packMag neg infMag)
  else packMag neg (roundMag (mag a * mag b) oneMag)

/-- `a <= b`, the ordered comparison: false when either side is a NaN; `-0 = +0`. -/
def fle (a b : Item) : Bool := !isNaN a && !isNaN b && decide (val a ≤ val b)

/-- `f64(n)`: the binary64 of a natural number, exact up to `2^53`. -/
def f64 (n : Nat) : Item := ofRatio false n 1

/-- `floor(v)` of a finite `v` that is not negative. -/
def floorNat (w : Item) : Nat := mag w / oneMag

/-- 1.0 -/
def f64One : Item := 0x3FF0000000000000#64

end Sys2Proof.Machine
end

