-- ==== Sys2Proof/Machine/Construction.lean ====
section
/-! DEFINITION. Which configurations build a block (00_scope.md R4, R5; 60_exceptions.md R183). -/

namespace Sys2Proof.Machine

/-- `GUARD_MIN` (R5): one guard sample for "now" and one for each older tap the mode uses. -/
def guardMin : DlMode → Nat
  | .none => 1
  | .linear => 2
  | .cubic4 => 3

/-- `DL_CAP = DL_MAXD + DL_GUARD` (R4, R23). -/
def dlCap (c : Config) : Nat := c.dlMaxd + c.dlGuard

/-- `CFG_VALID` (R5): every parameter inside its legal range of R4. The range of `INTERP_CUBIC4`, the functions with P_INTERP0, is the
type `Interpolator` of that parameter, so there is no value outside it to test for (log 4, log 9). The range of `DL_MODE` is its type
too, as is that of `AP_GAIN0`. -/
def cfgValid (c : Config) : Bool :=
  decide (1 ≤ c.rsCap ∧ c.rsCap ≤ maxCap)
  && decide (1 ≤ c.rsSize0 ∧ c.rsSize0 ≤ c.rsCap)
  && decide (dlCap c ≤ maxCap)
  && decide (guardMin c.dlMode ≤ c.dlGuard)
  && !isNaN c.dlDelay0
  && decide (1 ≤ c.apCap ∧ c.apCap ≤ maxCap)
  && decide (1 ≤ c.apLen0 ∧ c.apLen0 ≤ c.apCap)

end Sys2Proof.Machine
end

