-- ==== Sys2Proof/Machine/Operands.lean ====
section
/-! DEFINITION. What the units compute from operands before any store is touched: the clamp and split of a delay request
(41_delayline.md R130), the logical offsets of the taps (R131, R133) and the interpolation functions (R134 to R136). The assembly of
operands from the `arg` field and the payload (30_encoding.md R73, R74) is part of `Sys2Proof.decode`. -/

namespace Sys2Proof.Machine

/-- The clamp of R130: a request at or below 0 gives `+0`, one at or above `DL_MAXD` gives `DL_MAXD`. -/
def clampDelay (maxd : Nat) (s : Item) : Item :=
  if fle s 0#64 then 0#64
  else if fle (f64 maxd) s then f64 maxd
  else s

/-- `DL.DINT` and `DL.DFRAC` of a request that is not a NaN (R130). The subtraction is exact, so its draw `k` is never used. -/
def clampSplit (k maxd : Nat) (s : Item) : Nat × Item :=
  let c := clampDelay maxd s
  (floorNat c, fsub k c (f64 (floorNat c)))

/-- `base + G - 1 - r` with `base = C - DL.DINT - G`: the logical offset of tap `r` (R131, R133), from the capacity `cap`, the guard
count and the current integral delay only (R139). -/
def tapOffset (cap guard dint : Nat) (r : Int) : Int :=
  ((cap : Int) - dint - guard) + (guard - 1 - r)

/-- `INTERP(LINEAR)` (R135; the formula is the spec's own general knowledge, log 11): four rounded operations in the written order; the
draws `k .. k+3` are one for each. -/
def interpLinear (k : Nat) (_a b c _d f : Item) : Item :=
  fadd (k + 3) (fmul (k + 1) (fsub k f64One f) b) (fmul (k + 2) f c)

/-- `INTERP(DL_MODE)` of the taps `s[-1], s[0], s[1], s[2]` and the fraction (R131, R134 to R136). -/
def interp (mode : DlMode) (k : Nat) (a b c d f : Item) : Item :=
  match mode with
  | .none => interpNone a b c d f
  | .linear => interpLinear k a b c d f
  | .cubic4 => Config.interpCubic4.fn a b c d f

/-- `y = fadd(x1, fmul(g, fsub(x, y1)))` (42_allpass.md R152): three rounded operations, one draw for each. -/
def allpassOut (k : Nat) (g x x1 y1 : Item) : Item :=
  fadd (k + 2) x1 (fmul (k + 1) g (fsub k x y1))

end Sys2Proof.Machine
end

