-- ==== Sys2Proof/Machine/State.lean ====
section
/-! DEFINITION. The state of CORE as plain data (10_state.md R20 to R28), the reasons a step can stop, and the reset state (R30,
70_reset_and_hazards.md R200). Beside the spec's state it holds the configuration, which no step writes (log 1), the host's pending
events and the responses given (log 2), and the counter of NaN draws (log 3). -/

namespace Sys2Proof.Machine

/-- The items of a store by physical index (20_memory.md R50), in one canonical form: indices strictly rising, no zero item. A slot
that is not listed holds the all-zero word, the reset value (R30). An entry is a whole 64-bit item, the smallest addressable thing
(R50, R54; log 6). -/
abbrev Memory := List (Nat × Item)

/-- The registers of one store (R20). `S.CAP` is a constant of the configuration and is not repeated here (log 7). -/
structure Store where
  /-- `S.LSIZE` -/
  lsize : Nat
  /-- `S.WC` -/
  wc : Nat
  /-- `S.ITEMS` -/
  items : Memory
deriving DecidableEq, Repr

/-- An owner register (R27). -/
structure Owner where
  /-- `OWNER.BOUND` -/
  bound : Bool
  /-- `OWNER.CTX`, meaningful only when bound -/
  ctx : Ctx
deriving DecidableEq, Repr

/-- The RS unit (R22). -/
structure RsUnit where
  store : Store
  owner : Owner
deriving DecidableEq, Repr

/-- The DL unit (R23). -/
structure DlUnit where
  /-- `DL.S` -/
  store : Store
  /-- `DL.DINT` -/
  dint : Nat
  /-- `DL.DFRAC` -/
  dfrac : Item
  owner : Owner
deriving DecidableEq, Repr

/-- The AP unit (R25). -/
structure ApUnit where
  /-- `AP.FF` -/
  ff : Store
  /-- `AP.FB` -/
  fb : Store
  /-- `AP.GAIN` -/
  gain : Item
  owner : Owner
deriving DecidableEq, Repr

/-- What the host can send between two commands: a command `(H, P)` (30_encoding.md R70) or RESET (R200). -/
inductive HostEvent where
  | command (h : Word) (p : List Word)
  | reset
deriving DecidableEq, Repr

/-- A response `(W, Q)` (R70). -/
structure Response where
  /-- the status word `W` -/
  w : Word
  /-- the data words `Q` -/
  q : List Word
deriving DecidableEq, Repr

/-- The host's side of the command port: not state of CORE (R29), but what a step reads and answers (log 2). -/
structure Port where
  /-- events not yet accepted, oldest first -/
  inbox : List HostEvent
  /-- responses given, newest first -/
  outbox : List Response
deriving DecidableEq, Repr

/-- The whole machine. -/
structure State where
  /-- the configuration (R4), constant -/
  cfg : Config
  /-- the RS unit -/
  rs : RsUnit
  /-- the DL unit -/
  dl : DlUnit
  /-- the AP unit -/
  ap : ApUnit
  /-- `FAULT` (R28): true when halted -/
  fault : Bool
  /-- `FCODE` (R28) -/
  fcode : BitVec 8
  /-- how many NaN draws have been made (the model's own, log 3) -/
  nanDraws : Nat
  /-- the command port (the model's own, log 2) -/
  port : Port
deriving DecidableEq, Repr

/-- Why the machine stops with a Lean fault. The spec's own faults (60_exceptions.md R172) are not these: taking one is a next
state. Both of these can be raised only in a state that breaks the store invariant R21, and such a state no run reaches. -/
inductive Fault where
  /-- An item access outside `0 .. CAP-1` (00_scope.md R8: such a call "never occurs in this spec"). Raised by `memRead` and `memWrite`.
  Safe (log 8). -/
  | outsideStore
  /-- A remainder modulo a window of size 0, which R6 does not define. Raised by `windowMod`. Safe (log 8). -/
  | emptyWindow
deriving DecidableEq, Repr

/-- Why a step is refused. -/
inductive Refusal where
  /-- An instruction whose meaning is not modelled yet. Raised by no arm of `exec`. Safe. -/
  | notModelled (mnemonic : String)
  /-- The configuration is outside `CFG_VALID`: it builds no hardware and the model refuses it (R5, R183, D15). Raised by `fetch`.
  Safe (log 9). -/
  | invalidConfiguration
deriving DecidableEq, Repr

/-! ### Reset (R30, R200) -/

/-- A store at reset: the given logical size, cursor 0, every item zero (R30). -/
def Store.atReset (lsize : Nat) : Store := { lsize := lsize, wc := 0, items := [] }

/-- An unbound owner (R30). Its `CTX` is unspecified and never read: DESIGN CHOICE 0 (log 5). -/
def Owner.unbound : Owner := { bound := false, ctx := 0#8 }

/-- The reset state of a block built with this configuration (R30), nothing pending at the port, no draw made. -/
def State.resetWith (c : Config) : State where
  cfg := c
  rs := { store := Store.atReset c.rsSize0, owner := Owner.unbound }
  dl :=
    { store := Store.atReset (dlCap c)
      dint := (clampSplit 0 c.dlMaxd c.dlDelay0).1
      dfrac := (clampSplit 0 c.dlMaxd c.dlDelay0).2
      owner := Owner.unbound }
  ap :=
    { ff := Store.atReset c.apLen0
      fb := Store.atReset c.apLen0
      gain := c.apGain0
      owner := Owner.unbound }
  fault := false
  fcode := 0#8
  nanDraws := 0
  port := { inbox := [], outbox := [] }

/-- The machine right after reset, in the configuration CFG-A (R30; log 1). -/
def State.reset : State := State.resetWith Config.cfgA

/-! ### Writing one part of the state -/

/-- Write the RS unit. -/
def State.setRs (s : State) (u : RsUnit) : State := { s with rs := u }

/-- Write the DL unit. -/
def State.setDl (s : State) (u : DlUnit) : State := { s with dl := u }

/-- Write the AP unit. -/
def State.setAp (s : State) (u : ApUnit) : State := { s with ap := u }

/-- Write the fault registers. -/
def State.setFault (s : State) (f : Bool) (c : BitVec 8) : State := { s with fault := f, fcode := c }

/-- Write the counter of NaN draws. -/
def State.setDraws (s : State) (k : Nat) : State := { s with nanDraws := k }

/-- Write the events not yet accepted. -/
def State.setInbox (s : State) (l : List HostEvent) : State := { s with port := { s.port with inbox := l } }

/-- Give one response to the host. -/
def State.respond (s : State) (r : Response) : State := { s with port := { s.port with outbox := r :: s.port.outbox } }

end Sys2Proof.Machine
end

