-- ==== Sys2Proof/Machine/Flags.lean ====
section
/-! DEFINITION. The fault registers, the only flags of the block (10_state.md R28), and the responses (30_encoding.md R76, R77). No
command sets a carry, zero, overflow or comparison flag and no floating-point flag is kept (R28). -/

namespace Sys2Proof.Machine

/-- The seven causes of 60_exceptions.md R172. -/
inductive FaultCode where
  | illegal | owner | blockLen | resize | dlen | index | delayNaN
deriving DecidableEq, Repr

/-- The code column of R172. -/
def FaultCode.byte : FaultCode → BitVec 8
  | .illegal => 0x01#8
  | .owner => 0x02#8
  | .blockLen => 0x03#8
  | .resize => 0x04#8
  | .dlen => 0x05#8
  | .index => 0x06#8
  | .delayNaN => 0x07#8

/-- The status word of R76: `W[63:56] = status`, `W[55:32] = 0`, `W[31:0] = count`. -/
def statusWord (status : BitVec 8) (count : Nat) : Word :=
  (status ++ 0#24 ++ BitVec.ofNat 32 count : BitVec (8 + 24 + 32))

/-- The response `OK` with data `q` (R76, R77). -/
def okResponse (q : List Word) : Response := { w := statusWord 0x00#8 q.length, q := q }

/-- The response to a command that raised a fault: its code, no data (R76, R77, R173). -/
def faultResponse (c : FaultCode) : Response := { w := statusWord c.byte 0, q := [] }

/-- The response of a halted CORE: `0x80 + FCODE`, no data (R77, R174). -/
def haltedResponse (fcode : BitVec 8) : Response := { w := statusWord (0x80#8 + fcode) 0, q := [] }

/-- Fault entry, `raise Fault(c)` (R173): the two fault registers and the response, nothing else. -/
def raiseFault (c : FaultCode) (s : State) : State := (s.setFault true c.byte).respond (faultResponse c)

/-- What a halted CORE does with a command (R174): the response, nothing else. -/
def answerHalted (s : State) : State := s.respond (haltedResponse s.fcode)

end Sys2Proof.Machine
end

