-- ==== Sys2Proof/Machine/Ops.lean ====
section
/-! DEFINITION. The named operations: item memory (00_scope.md R8), translation (20_memory.md R52), the store primitives
(40_ringstore.md R100 to R107), ownership (60_exceptions.md R176, R177), the command envelope (R170), RESET (70_reset_and_hazards.md
R200) and the acceptance of the host's next event. -/

namespace Sys2Proof.Machine

/-! ### Item memory -/

/-- The item at a physical index; a slot not listed holds zero (10_state.md R30). -/
def Memory.read : Memory → Nat → Item
  | [], _ => 0#64
  | (q, u) :: rest, p => if q = p then u else Memory.read rest p

/-- Store one item, keeping the canonical form: a zero item is not listed. -/
def Memory.write : Memory → Nat → Item → Memory
  | [], p, v => if v = 0#64 then [] else [(p, v)]
  | (q, u) :: rest, p, v =>
    if p < q then (if v = 0#64 then (q, u) :: rest else (p, v) :: (q, u) :: rest)
    else if p = q then (if v = 0#64 then rest else (p, v) :: rest)
    else (q, u) :: Memory.write rest p v

/-- The canonical form: indices strictly rising, no item equal to what an unlisted slot reads as. -/
def Memory.wf : Memory → Bool
  | [] => true
  | [(_, v)] => v != 0#64
  | (p, v) :: (q, u) :: rest => v != 0#64 && decide (p < q) && Memory.wf ((q, u) :: rest)

/-- Every listed index is one of a store of this capacity (R50). -/
def Memory.within (m : Memory) (cap : Nat) : Bool := m.all (fun c => decide (c.1 < cap))

/-- The items at `p, p+1, …` -/
def Memory.readList (m : Memory) (p : Nat) : Nat → List Item
  | 0 => []
  | n + 1 => m.read p :: Memory.readList m (p + 1) n

/-- Store the items of a list at `p, p+1, …` -/
def Memory.writeList : Memory → Nat → List Item → Memory
  | m, _, [] => m
  | m, p, v :: vs => Memory.writeList (m.write p v) (p + 1) vs

/-- `MemRead(S, p, n)` (R8): requires `p + n <= CAP`; a call that breaks this has no meaning. -/
def memRead (cap : Nat) (m : Memory) (p n : Nat) : Except Fault (List Item) :=
  if p + n ≤ cap then .ok (m.readList p n) else .error .outsideStore

/-- `MemWrite(S, p, n, v)` with `n` the length of `v` (R8), under the same requirement. -/
def memWrite (cap : Nat) (m : Memory) (p : Nat) (vs : List Item) : Except Fault Memory :=
  if p + vs.length ≤ cap then .ok (m.writeList p vs) else .error .outsideStore

/-- `MemRead(S, p, 1)[0]` -/
def memRead1 (cap : Nat) (m : Memory) (p : Nat) : Except Fault Item :=
  match memRead cap m p 1 with
  | .ok vs => .ok (vs.headD 0#64)
  | .error e => .error e

/-! ### Translation (R52) -/

/-- `a mod L`, the Euclidean remainder, defined only for `L >= 1` (R6). -/
def windowMod (a : Int) (lsize : Nat) : Except Fault Nat :=
  if lsize = 0 then .error .emptyWindow else .ok (a % (lsize : Int)).toNat

/-- `phys(S, k) = (S.WC + k) mod S.LSIZE` (R52), on unbounded integers, so that the sum does not wrap. -/
def phys (S : Store) (k : Int) : Except Fault Nat := windowMod ((S.wc : Int) + k) S.lsize

/-! ### Store primitives (R100 to R107); `cap` is `S.CAP` -/

/-- `st_write(S, v)` (R100). -/
def stWrite (cap : Nat) (S : Store) (v : Item) : Except Fault Store := do
  let items ← memWrite cap S.items S.wc [v]
  let wc ← windowMod ((S.wc : Int) + 1) S.lsize
  return { S with items := items, wc := wc }

/-- The loop of R101: the items of the block at `start mod L`, `(start + 1) mod L`, … -/
def writeRun (cap lsize : Nat) : Memory → Int → List Item → Except Fault Memory
  | m, _, [] => .ok m
  | m, start, v :: vs => do
    let p ← windowMod start lsize
    let m' ← memWrite cap m p [v]
    writeRun cap lsize m' (start + 1) vs

/-- `st_write_block(S, v)` (R101), for a block no longer than the window; all indices use the old cursor. -/
def stWriteBlock (cap : Nat) (S : Store) (vs : List Item) : Except Fault Store := do
  let items ← writeRun cap S.lsize S.items S.wc vs
  let wc ← windowMod ((S.wc : Int) + vs.length) S.lsize
  return { S with items := items, wc := wc }

/-- The loop of R102 and R103: `n` items at `start mod L`, `(start + 1) mod L`, … -/
def readRun (cap lsize : Nat) (m : Memory) : Int → Nat → Except Fault (List Item)
  | _, 0 => .ok []
  | start, n + 1 => do
    let p ← windowMod start lsize
    let v ← memRead1 cap m p
    let vs ← readRun cap lsize m (start + 1) n
    return v :: vs

/-- `st_read_head(S, N)` (R102): the run that ends just before the cursor. -/
def stReadHead (cap : Nat) (S : Store) (n : Nat) : Except Fault (List Item) := do
  let start ← windowMod ((S.wc : Int) - n) S.lsize
  readRun cap S.lsize S.items start n

/-- `st_read_tail(S, N)` (R103): the run that starts at the cursor. -/
def stReadTail (cap : Nat) (S : Store) (n : Nat) : Except Fault (List Item) := do
  let start ← windowMod (S.wc : Int) S.lsize
  readRun cap S.lsize S.items start n

/-- `st_read_at(S, k)` (R104). -/
def stReadAt (cap : Nat) (S : Store) (k : Int) : Except Fault Item := do
  let p ← phys S k
  memRead1 cap S.items p

/-- `st_resize(S, n)` (R105): the cursor is reduced modulo the new size in the same step (C1, D7); no item is touched. -/
def stResize (S : Store) (n : Nat) : Except Fault Store := do
  let wc ← windowMod (S.wc : Int) n
  return { S with lsize := n, wc := wc }

/-- `st_clear(S)` (R106): all `CAP` slots zero, so none is listed; cursor and size keep their values. -/
def stClear (S : Store) : Store := { S with items := [] }

/-- `st_item_at(S, p)` (R107). -/
def stItemAt (cap : Nat) (S : Store) (p : Nat) : Except Fault Item := memRead1 cap S.items p

/-! ### Ownership (R176, R177) -/

/-- The owner register of a unit (10_state.md R27). -/
def State.owner (s : State) : UnitId → Owner
  | .rs => s.rs.owner
  | .dl => s.dl.owner
  | .ap => s.ap.owner

/-- Write the owner register of a unit. -/
def State.setOwner (s : State) (u : UnitId) (o : Owner) : State :=
  match u with
  | .rs => s.setRs { s.rs with owner := o }
  | .dl => s.setDl { s.dl with owner := o }
  | .ap => s.setAp { s.ap with owner := o }

/-- The owner check of R176 fails: the unit is bound to another context. -/
def State.foreign (s : State) (u : UnitId) (ctx : Ctx) : Bool :=
  (s.owner u).bound && (s.owner u).ctx != ctx

/-- Owner binding (R177): an unbound unit is bound to the command's context; a bound one keeps its owner. -/
def State.bindOwner (s : State) (u : UnitId) (ctx : Ctx) : State :=
  if (s.owner u).bound then s else s.setOwner u { bound := true, ctx := ctx }

/-! ### The command envelope (R170) -/

/-- Steps 1 and 3 to 5 of R170 for a decoded command of unit `u` sent by `ctx`: `check` is the command's argument check, `run` its
state writes and its result. Step 2, the decoding, is `fetch`'s. -/
def envelope (u : UnitId) (ctx : Ctx) (check : Option FaultCode) (run : State → Except Fault (State × List Item)) (s : State) :
    Host.Outcome State Fault Refusal :=
  if s.fault then .next (answerHalted s)
  else if s.foreign u ctx then .next (raiseFault .owner s)
  else
    match check with
    | some c => .next (raiseFault c s)
    | none =>
      match run (s.bindOwner u ctx) with
      | .ok (t, q) => .next (t.respond (okResponse q))
      | .error e => .fault e

/-! ### RESET (R200) -/

/-- The RESET event: every piece of CORE's state takes its reset value (R30). The configuration stays; so do the host's side of the
port and the draws made, which are not state of CORE (log 2, log 3). -/
def resetEvent (s : State) : State :=
  { State.resetWith s.cfg with port := s.port, nanDraws := s.nanDraws }

/-! ### The host's next event -/

/-- Accept the host's next event: either the whole step's outcome, or a decoded command and the state to run it in. Nothing pending:
CORE holds its state (60_exceptions.md R184). Halted: the command is answered undecoded (R170 step 1). `ILLEGAL`: fault entry (step 2).
A configuration outside `CFG_VALID` is refused (R5). -/
def fetch (s : State) : Host.Outcome State Fault Refusal ⊕ Instr × State :=
  if cfgValid s.cfg then
    match s.port.inbox with
    | [] => .inl (.next s)
    | .reset :: rest => .inl (.next (resetEvent (s.setInbox rest)))
    | .command h p :: rest =>
      if s.fault then .inl (.next (answerHalted (s.setInbox rest)))
      else
        match decode h p with
        | .error _ => .inl (.next (raiseFault .illegal (s.setInbox rest)))
        | .ok i => .inr (i, s.setInbox rest)
  else .inl (.refused .invalidConfiguration)

end Sys2Proof.Machine
end

