-- ==== Sys2Proof/Machine/Allpass.lean ====
section
/-! DEFINITION. The meanings of the `AP.*` commands (42_allpass.md R150 to R153). -/

namespace Sys2Proof.Machine

/-- The argument check of `AP.SETLEN` (R150). -/
def checkLen (d : Nat) (s : State) : Option FaultCode :=
  if d = 0 ∨ s.cfg.apCap < d then some .dlen else none

/-- The state writes of `AP.SETLEN` (R150): both stores in one command. -/
def runSetLen (d : Nat) (s : State) : Except Fault (State × List Item) := do
  let ff ← stResize s.ap.ff d
  let fb ← stResize s.ap.fb d
  return (s.setAp { s.ap with ff := ff, fb := fb }, [])

/-- The state writes of `AP.SETGAIN` (R151): stored unchecked and unclamped. -/
def runSetGain (g : Item) (s : State) : Except Fault (State × List Item) :=
  .ok (s.setAp { s.ap with gain := g }, [])

/-- `AP.PROCESS` (R152): the two oldest samples are read before the two new ones are written. Its arithmetic takes three NaN draws
(log 3). -/
def runApProcess (x : Item) (s : State) : Except Fault (State × List Item) := do
  let x1 ← stReadAt s.cfg.apCap s.ap.ff 0
  let y1 ← stReadAt s.cfg.apCap s.ap.fb 0
  let y := allpassOut s.nanDraws s.ap.gain x x1 y1
  let ff ← stWrite s.cfg.apCap s.ap.ff x
  let fb ← stWrite s.cfg.apCap s.ap.fb y
  return ((s.setAp { s.ap with ff := ff, fb := fb }).setDraws (s.nanDraws + 3), [y])

/-- The state writes of `AP.CLEAR` (R153). -/
def runApClear (s : State) : Except Fault (State × List Item) :=
  .ok (s.setAp { s.ap with ff := stClear s.ap.ff, fb := stClear s.ap.fb }, [])

/-- `AP.SETLEN` (R150). -/
def execApSetlen (ctx : Ctx) (d : Nat) (s : State) : Host.Outcome State Fault Refusal :=
  envelope .ap ctx (checkLen d s) (runSetLen d) s

/-- `AP.SETGAIN` (R151). -/
def execApSetgain (ctx : Ctx) (g : Item) (s : State) : Host.Outcome State Fault Refusal :=
  envelope .ap ctx none (runSetGain g) s

/-- `AP.PROCESS` (R152). -/
def execApProcess (ctx : Ctx) (x : Item) (s : State) : Host.Outcome State Fault Refusal :=
  envelope .ap ctx none (runApProcess x) s

/-- `AP.CLEAR` (R153). -/
def execApClear (ctx : Ctx) (s : State) : Host.Outcome State Fault Refusal :=
  envelope .ap ctx none runApClear s

end Sys2Proof.Machine
end

