-- ==== Sys2Proof/Machine/DelayLine.lean ====
section
/-! DEFINITION. The meanings of the `DL.*` commands (41_delayline.md R130 to R132). -/

namespace Sys2Proof.Machine

/-- The argument check of `DL.SETDELAY` (R130). -/
def checkDelay (d : Item) : Option FaultCode := if isNaN d then some .delayNaN else none

/-- The state writes of `DL.SETDELAY` (R130): the two halves of `delay_time`; `DL.S` is neither read nor written. -/
def runSetDelay (d : Item) (s : State) : Except Fault (State × List Item) :=
  let split := clampSplit s.nanDraws s.cfg.dlMaxd d
  .ok (s.setDl { s.dl with dint := split.1, dfrac := split.2 }, [])

/-- Tap `r` of `DL.PROCESS` (R131, R133): the offset is recomputed from scratch and wraps through `st_read_at` (R139). -/
def readTap (c : Config) (S : Store) (dint : Nat) (r : Int) : Except Fault Item :=
  stReadAt (dlCap c) S (tapOffset (dlCap c) c.dlGuard dint r)

/-- `DL.PROCESS` (R131): the write comes first, then the four taps, then the interpolation of the configured mode. Its arithmetic
takes four NaN draws (log 3). -/
def runDlProcess (x : Item) (s : State) : Except Fault (State × List Item) := do
  let S ← stWrite (dlCap s.cfg) s.dl.store x
  let a ← readTap s.cfg S s.dl.dint (-1)
  let b ← readTap s.cfg S s.dl.dint 0
  let c ← readTap s.cfg S s.dl.dint 1
  let d ← readTap s.cfg S s.dl.dint 2
  let y := interp s.cfg.dlMode s.nanDraws a b c d s.dl.dfrac
  return ((s.setDl { s.dl with store := S }).setDraws (s.nanDraws + 4), [y])

/-- The state writes of `DL.CLEAR` (R132). -/
def runDlClear (s : State) : Except Fault (State × List Item) :=
  .ok (s.setDl { s.dl with store := stClear s.dl.store }, [])

/-- `DL.SETDELAY` (R130). -/
def execDlSetdelay (ctx : Ctx) (d : Item) (s : State) : Host.Outcome State Fault Refusal :=
  envelope .dl ctx (checkDelay d) (runSetDelay d) s

/-- `DL.PROCESS` (R131). -/
def execDlProcess (ctx : Ctx) (x : Item) (s : State) : Host.Outcome State Fault Refusal :=
  envelope .dl ctx none (runDlProcess x) s

/-- `DL.CLEAR` (R132). -/
def execDlClear (ctx : Ctx) (s : State) : Host.Outcome State Fault Refusal :=
  envelope .dl ctx none runDlClear s

end Sys2Proof.Machine
end

