-- ==== Sys2Proof/Machine/RingStore.lean ====
section
/-! DEFINITION. The meanings of the `RS.*` commands (40_ringstore.md R110 to R117): each applies one store primitive to `RS.S` inside
the command envelope. -/

namespace Sys2Proof.Machine

/-- A primitive that writes `RS.S`; no data. -/
def runRsWrite (f : Nat → Store → Except Fault Store) (s : State) : Except Fault (State × List Item) := do
  let S ← f s.cfg.rsCap s.rs.store
  return (s.setRs { s.rs with store := S }, [])

/-- A primitive that only reads `RS.S`; its items are the data (20_memory.md R57). -/
def runRsRead (f : Nat → Store → Except Fault (List Item)) (s : State) : Except Fault (State × List Item) := do
  let q ← f s.cfg.rsCap s.rs.store
  return (s, q)

/-- The argument check of the block commands: `N > RS.LSIZE` (R111, R112, R113). -/
def checkBlockLen (n : Nat) (s : State) : Option FaultCode :=
  if s.rs.store.lsize < n then some .blockLen else none

/-- The argument check of `RS.RESIZE` (R115). -/
def checkResize (n : Nat) (s : State) : Option FaultCode :=
  if n = 0 ∨ s.cfg.rsCap < n then some .resize else none

/-- The argument check of `RS.ITEMAT` (R117). -/
def checkIndex (p : Nat) (s : State) : Option FaultCode :=
  if s.cfg.rsCap ≤ p then some .index else none

/-- The head read that `RS.READH` and its second name `RS.READ` stand for (R112, 30_encoding.md R80). -/
def readHeadCommand (ctx : Ctx) (n : Nat) (s : State) : Host.Outcome State Fault Refusal :=
  envelope .rs ctx (checkBlockLen n s) (runRsRead fun cap S => stReadHead cap S n) s

/-- `RS.WRITE` (R110). -/
def execRsWrite (ctx : Ctx) (v : Item) (s : State) : Host.Outcome State Fault Refusal :=
  envelope .rs ctx none (runRsWrite fun cap S => stWrite cap S v) s

/-- `RS.WRITEB` (R111). -/
def execRsWriteb (ctx : Ctx) (vs : List Item) (s : State) : Host.Outcome State Fault Refusal :=
  envelope .rs ctx (checkBlockLen vs.length s) (runRsWrite fun cap S => stWriteBlock cap S vs) s

/-- `RS.READH` (R112). -/
def execRsReadh (ctx : Ctx) (n : Nat) (s : State) : Host.Outcome State Fault Refusal :=
  readHeadCommand ctx n s

/-- `RS.READ`, the second name of `RS.READH` (R80; log 13). -/
def execRsRead (ctx : Ctx) (n : Nat) (s : State) : Host.Outcome State Fault Refusal :=
  readHeadCommand ctx n s

/-- `RS.READT` (R113). -/
def execRsReadt (ctx : Ctx) (n : Nat) (s : State) : Host.Outcome State Fault Refusal :=
  envelope .rs ctx (checkBlockLen n s) (runRsRead fun cap S => stReadTail cap S n) s

/-- `RS.READAT` (R114): no offset faults. -/
def execRsReadat (ctx : Ctx) (k : Int) (s : State) : Host.Outcome State Fault Refusal :=
  envelope .rs ctx none (runRsRead fun cap S => (stReadAt cap S k).map (fun v => [v])) s

/-- `RS.RESIZE` (R115). -/
def execRsResize (ctx : Ctx) (n : Nat) (s : State) : Host.Outcome State Fault Refusal :=
  envelope .rs ctx (checkResize n s) (runRsWrite fun _ S => stResize S n) s

/-- `RS.CLEAR` (R116). -/
def execRsClear (ctx : Ctx) (s : State) : Host.Outcome State Fault Refusal :=
  envelope .rs ctx none (runRsWrite fun _ S => .ok (stClear S)) s

/-- `RS.ITEMAT` (R117): a physical index, the window takes no part. -/
def execRsItemat (ctx : Ctx) (p : Nat) (s : State) : Host.Outcome State Fault Refusal :=
  envelope .rs ctx (checkIndex p s) (runRsRead fun cap S => (stItemAt cap S p).map (fun v => [v])) s

end Sys2Proof.Machine
end

