-- ==== Sys2Proof/Machine/Dispatch.lean ====
section
/-! DEFINITION. One arm for each command of the table (30_encoding.md R75). -/

namespace Sys2Proof.Machine

def exec (i : Instr) (s : State) : Host.Outcome State Fault Refusal :=
  match i with
  | .rsWrite ctx v => Sys2Proof.Machine.execRsWrite ctx v s
  | .rsWriteb ctx vs => Sys2Proof.Machine.execRsWriteb ctx vs s
  | .rsReadh ctx n => Sys2Proof.Machine.execRsReadh ctx n s
  | .rsRead ctx n => Sys2Proof.Machine.execRsRead ctx n s
  | .rsReadt ctx n => Sys2Proof.Machine.execRsReadt ctx n s
  | .rsReadat ctx k => Sys2Proof.Machine.execRsReadat ctx k s
  | .rsResize ctx n => Sys2Proof.Machine.execRsResize ctx n s
  | .rsClear ctx => Sys2Proof.Machine.execRsClear ctx s
  | .rsItemat ctx p => Sys2Proof.Machine.execRsItemat ctx p s
  | .dlSetdelay ctx d => Sys2Proof.Machine.execDlSetdelay ctx d s
  | .dlProcess ctx x => Sys2Proof.Machine.execDlProcess ctx x s
  | .dlClear ctx => Sys2Proof.Machine.execDlClear ctx s
  | .apSetlen ctx d => Sys2Proof.Machine.execApSetlen ctx d s
  | .apSetgain ctx g => Sys2Proof.Machine.execApSetgain ctx g s
  | .apProcess ctx x => Sys2Proof.Machine.execApProcess ctx x s
  | .apClear ctx => Sys2Proof.Machine.execApClear ctx s

end Sys2Proof.Machine
end

