-- ==== Sys2Proof/Machine/Step.lean ====
section
/-! DEFINITION. One step of the machine: the host's next event, wholly (20_memory.md R59). -/

namespace Sys2Proof.Machine

/-- One step (R170): accept the host's next event and, if it is a command that decodes while CORE runs, execute it. -/
def step (s : State) : Host.Outcome State Fault Refusal :=
  match fetch s with
  | .inl o => o
  | .inr (i, t) => exec i t

end Sys2Proof.Machine

/-- The state in which the very next step accepts the command whose bits are `w` (numbered as opcode_table.json numbers them): the
host's next event is that command (log 2, log 15). Nothing else changes. -/
def Sys2Proof.Machine.State.withFetchWord (s : Sys2Proof.Machine.State) (nbits w : Nat) : Sys2Proof.Machine.State :=
  let c := Sys2Proof.tableCommand nbits w
  s.setInbox (Sys2Proof.Machine.HostEvent.command c.1 c.2 :: s.port.inbox)
end

