-- ==== Sys2Proof/Machine/Assembler.lean ====
section
/-! DEFINITION. The text form of commands and the pseudo-instructions (30_encoding.md R79, R80). A line of text assembles to the list
of the commands it stands for: none for a blank or comment line, one for a command, `n` for a pseudo-instruction of `n` samples.
What R79 does not say of blanks and of literals is in log 14. -/

namespace Sys2Proof.Machine

/-! ### Characters and lists of characters -/

/-- A blank between the parts of a line. -/
def isBlank (c : Char) : Bool := c == ' ' || c == '\t' || c == '\r'

/-- Drop the blanks at both ends. -/
def trimBlanks (cs : List Char) : List Char :=
  ((cs.dropWhile isBlank).reverse.dropWhile isBlank).reverse

/-- What stands before the first `c`, and what stands after it if there is one. -/
def splitFirst (c : Char) : List Char → List Char × Option (List Char)
  | [] => ([], none)
  | x :: xs =>
    if x == c then ([], some xs)
    else
      let r := splitFirst c xs
      (x :: r.1, r.2)

/-- The parts between the `c`s: always at least one. -/
def splitAll (c : Char) : List Char → List (List Char)
  | [] => [[]]
  | x :: xs =>
    if x == c then [] :: splitAll c xs
    else
      match splitAll c xs with
      | [] => [[x]]
      | p :: ps => (x :: p) :: ps

/-- All of the parts, if every one of them is there. -/
def allSome {α : Type} : List (Option α) → Option (List α)
  | [] => some []
  | none :: _ => none
  | some a :: rest =>
    match allSome rest with
    | some l => some (a :: l)
    | none => none

/-! ### Numbers -/

/-- The value of a decimal digit. -/
def decDigit (c : Char) : Option Nat :=
  if 48 ≤ c.toNat ∧ c.toNat ≤ 57 then some (c.toNat - 48) else none

/-- The value of a hexadecimal digit. -/
def hexDigit (c : Char) : Option Nat :=
  if 48 ≤ c.toNat ∧ c.toNat ≤ 57 then some (c.toNat - 48)
  else if 65 ≤ c.toNat ∧ c.toNat ≤ 70 then some (c.toNat - 55)
  else if 97 ≤ c.toNat ∧ c.toNat ≤ 102 then some (c.toNat - 87)
  else none

/-- Read digits after the number `acc`. -/
def digitsFrom (base : Nat) (digit : Char → Option Nat) : Nat → List Char → Option Nat
  | acc, [] => some acc
  | acc, c :: cs =>
    match digit c with
    | some d => digitsFrom base digit (acc * base + d) cs
    | none => none

/-- A number of one or more decimal digits. -/
def parseNat : List Char → Option Nat
  | [] => none
  | c :: cs => digitsFrom 10 decDigit 0 (c :: cs)

/-- A number of one or more hexadecimal digits. -/
def parseHex : List Char → Option Nat
  | [] => none
  | c :: cs => digitsFrom 16 hexDigit 0 (c :: cs)

/-- A decimal integer with an optional leading `-`. -/
def parseInt : List Char → Option Int
  | '-' :: cs => (parseNat cs).map (fun n => -(n : Int))
  | cs => (parseNat cs).map (fun n => (n : Int))

/-- The exponent of a decimal literal: an integer that may also begin with `+`. -/
def parseExponent : List Char → Option Int
  | '+' :: cs => (parseNat cs).map (fun n => (n : Int))
  | cs => parseInt cs

/-- The binary64 nearest `m * 10^e`, ties to even (R79). -/
def ofDecimal (neg : Bool) (m : Nat) (e : Int) : Item :=
  if 0 ≤ e then ofRatio neg (m * 10 ^ e.toNat) 1 else ofRatio neg m (10 ^ (-e).toNat)

/-- A decimal literal with a point or an exponent, its sign apart (R79). -/
def parseUnsignedDecimal (neg : Bool) (cs : List Char) : Option Item :=
  let parts := splitFirst 'e' cs
  let point := splitFirst '.' parts.1
  match point.2, parts.2 with
  | none, none => none
  | none, some ex =>
    match parseNat point.1, parseExponent ex with
    | some m, some e => some (ofDecimal neg m e)
    | _, _ => none
  | some fp, none =>
    match parseNat point.1, parseNat fp, parseNat (point.1 ++ fp) with
    | some _, some _, some m => some (ofDecimal neg m (-(fp.length : Int)))
    | _, _, _ => none
  | some fp, some ex =>
    match parseNat point.1, parseNat fp, parseNat (point.1 ++ fp), parseExponent ex with
    | some _, some _, some m, some e => some (ofDecimal neg m (e - fp.length))
    | _, _, _, _ => none

/-- An item (R79): `0x` and exactly sixteen hexadecimal digits, or a decimal literal with a point or an exponent. R79 does not say whether
a literal may begin with `+`: DESIGN CHOICE, it may not (log 14). -/
def parseItem : List Char → Option Item
  | '0' :: 'x' :: h => if h.length = 16 then (parseHex h).map (BitVec.ofNat 64) else none
  | '-' :: cs => parseUnsignedDecimal true cs
  | cs => parseUnsignedDecimal false cs

/-- A bracketed, comma-separated list of items, possibly empty (R79). -/
def parseBlock (cs : List Char) : Option (List Item) :=
  match cs with
  | '[' :: rest =>
    match rest.reverse with
    | ']' :: inner =>
      match trimBlanks inner.reverse with
      | [] => some []
      | c :: cs => allSome ((splitAll ',' (c :: cs)).map (fun p => parseItem (trimBlanks p)))
    | _ => none
  | _ => none

/-- The context token: an integer `0 .. 255`, decimal or `0x` hexadecimal (R79). -/
def parseCtx (cs : List Char) : Option Ctx :=
  let n :=
    match cs with
    | '0' :: 'x' :: h => parseHex h
    | cs => parseNat cs
  match n with
  | some n => if n < 256 then some (BitVec.ofNat 8 n) else none
  | none => none

/-! ### Operands by format (R79) -/

/-- No operand (format `H0`). -/
def operandNone (i : Instr) : Option (List Char) → Option (List Instr)
  | none => some [i]
  | some _ => none

/-- An unsigned decimal integer (format `HA`). -/
def operandNat (f : Nat → Instr) : Option (List Char) → Option (List Instr)
  | none => none
  | some cs =>
    match parseNat cs with
    | some n => if FitsUnsigned n then some [f n] else none
    | none => none

/-- A signed decimal integer (`RS.READAT`). -/
def operandInt (f : Int → Instr) : Option (List Char) → Option (List Instr)
  | none => none
  | some cs =>
    match parseInt cs with
    | some k => if FitsSigned k then some [f k] else none
    | none => none

/-- One item (format `HP`). -/
def operandItem (f : Item → Instr) : Option (List Char) → Option (List Instr)
  | none => none
  | some cs => (parseItem cs).map (fun v => [f v])

/-- A block of items, its length the `arg` (format `HB`). -/
def operandBlock (f : List Item → Instr) : Option (List Char) → Option (List Instr)
  | none => none
  | some cs =>
    match parseBlock cs with
    | some vs => if FitsUnsigned vs.length then some [f vs] else none
    | none => none

/-- The expansion of a block-process pseudo-instruction: one command for each sample, in order (R80, D23). -/
def expandBlock (f : Item → Instr) (xs : List Item) : List Instr := xs.map f

/-- The operand of a block-process pseudo-instruction (R80). -/
def operandExpand (f : Item → Instr) : Option (List Char) → Option (List Instr)
  | none => none
  | some cs => (parseBlock cs).map (expandBlock f)

/-- The mnemonics of R75 and the pseudo-instructions of R80, each with what it assembles to. -/
def asmTable (ctx : Ctx) : List (List Char × (Option (List Char) → Option (List Instr))) :=
  [("RS.WRITE".toList, operandItem (Instr.rsWrite ctx)),
   ("RS.WRITEB".toList, operandBlock (Instr.rsWriteb ctx)),
   ("RS.READH".toList, operandNat (Instr.rsReadh ctx)),
   ("RS.READ".toList, operandNat (Instr.rsRead ctx)),
   ("RS.READT".toList, operandNat (Instr.rsReadt ctx)),
   ("RS.READAT".toList, operandInt (Instr.rsReadat ctx)),
   ("RS.RESIZE".toList, operandNat (Instr.rsResize ctx)),
   ("RS.CLEAR".toList, operandNone (Instr.rsClear ctx)),
   ("RS.ITEMAT".toList, operandNat (Instr.rsItemat ctx)),
   ("DL.SETDELAY".toList, operandItem (Instr.dlSetdelay ctx)),
   ("DL.PROCESS".toList, operandItem (Instr.dlProcess ctx)),
   ("DL.PROCESSB".toList, operandExpand (Instr.dlProcess ctx)),
   ("DL.CLEAR".toList, operandNone (Instr.dlClear ctx)),
   ("AP.SETLEN".toList, operandNat (Instr.apSetlen ctx)),
   ("AP.SETGAIN".toList, operandItem (Instr.apSetgain ctx)),
   ("AP.PROCESS".toList, operandItem (Instr.apProcess ctx)),
   ("AP.PROCESSB".toList, operandExpand (Instr.apProcess ctx)),
   ("AP.CLEAR".toList, operandNone (Instr.apClear ctx))]

/-! ### Lines -/

/-- What stands after the mnemonic: `@ctx`, and the operand if there is one. -/
def parseTail : List Char → Option (Ctx × Option (List Char))
  | '@' :: cs =>
    let parts := splitFirst ',' cs
    match parseCtx (trimBlanks parts.1) with
    | some ctx => some (ctx, parts.2.map trimBlanks)
    | none => none
  | _ => none

/-- The commands a line stands for (R79, R80), or none where the line is not of the form R79 gives. -/
def assembleLine (line : List Char) : Option (List Instr) :=
  match trimBlanks (splitFirst ';' line).1 with
  | [] => some []
  | c :: cs =>
    let mnemonic := (c :: cs).takeWhile (fun x => !isBlank x)
    match parseTail (trimBlanks ((c :: cs).dropWhile (fun x => !isBlank x))) with
    | none => none
    | some (ctx, operand) =>
      match (asmTable ctx).find? (fun row => row.1 == mnemonic) with
      | some row => row.2 operand
      | none => none

/-- A program text, one command a line (R79), as the list of its commands. R79 does not say what a text with a malformed line stands
for: DESIGN CHOICE, the whole text is refused (log 14). -/
def assemble (text : List Char) : Option (List Instr) :=
  (allSome ((splitAll '\n' text).map assembleLine)).map List.flatten

/-- The words of a program text: the commands `(H, P)` the host issues, in order (R70). -/
def assembleWords (text : List Char) : Option (List (Word × List Word)) :=
  (assemble text).map (fun is => is.map encode)

end Sys2Proof.Machine
end

