-- ==== Sys2Proof/Safety.lean ====
section
/-! DEFINITION. The invariant of the machine (10_state.md R21, R24, R26, R28, R32) and the terms claims are stated in. The invariant
is a conjunction of decidable facts, so that a concrete state can be tested. -/

namespace Sys2Proof.Machine

/-! ### The invariant -/

/-- The store invariant of R21 for a store of capacity `cap`, and the canonical form of its items. -/
abbrev Store.Ok (cap : Nat) (S : Store) : Prop :=
  1 ≤ S.lsize ∧ S.lsize ≤ cap ∧ S.wc < S.lsize ∧ Memory.wf S.items = true ∧ Memory.within S.items cap = true

/-- A binary64 in `[0, 1)` that is not `-0` and not a NaN (R23, R32). -/
abbrev IsFraction (f : Item) : Prop := signBit f = false ∧ mag f < oneMag

/-- The DL unit's invariant (R21, R24, R32). -/
abbrev DlUnit.Ok (c : Config) (u : DlUnit) : Prop :=
  Store.Ok (dlCap c) u.store ∧ u.store.lsize = dlCap c ∧ u.dint ≤ c.dlMaxd ∧ IsFraction u.dfrac ∧
    (u.dint = c.dlMaxd → u.dfrac = 0#64)

/-- The AP unit's invariant: the two stores in lock step (R21, R26). -/
abbrev ApUnit.Ok (c : Config) (u : ApUnit) : Prop :=
  Store.Ok c.apCap u.ff ∧ Store.Ok c.apCap u.fb ∧ u.ff.lsize = u.fb.lsize ∧ u.ff.wc = u.fb.wc

/-- The fault registers' invariant (R28): `FCODE` is 0 while CORE runs and a code of R172 once it is halted. -/
abbrev State.FaultOk (s : State) : Prop :=
  if s.fault = true then 1 ≤ s.fcode.toNat ∧ s.fcode.toNat ≤ 7 else s.fcode = 0#8

/-- The machine's invariant. -/
abbrev State.Inv (s : State) : Prop :=
  cfgValid s.cfg = true ∧ Store.Ok s.cfg.rsCap s.rs.store ∧ DlUnit.Ok s.cfg s.dl ∧ ApUnit.Ok s.cfg s.ap ∧ s.FaultOk

/-! ### When a command of a unit is let in -/

/-- CORE runs and the unit's owner check lets the context in (60_exceptions.md R170 steps 1 and 3). -/
abbrev State.Accepts (s : State) (u : UnitId) (ctx : Ctx) : Prop :=
  s.fault = false ∧ s.foreign u ctx = false

/-- The condition of a command's own argument check (60_exceptions.md R172): true where the check lets the command run. -/
abbrev ArgOk (s : State) : Instr → Prop
  | .rsWrite _ _ => True
  | .rsWriteb _ vs => vs.length ≤ s.rs.store.lsize
  | .rsReadh _ n => n ≤ s.rs.store.lsize
  | .rsRead _ n => n ≤ s.rs.store.lsize
  | .rsReadt _ n => n ≤ s.rs.store.lsize
  | .rsReadat _ _ => True
  | .rsResize _ n => 1 ≤ n ∧ n ≤ s.cfg.rsCap
  | .rsClear _ => True
  | .rsItemat _ p => p < s.cfg.rsCap
  | .dlSetdelay _ d => isNaN d = false
  | .dlProcess _ _ => True
  | .dlClear _ => True
  | .apSetlen _ d => 1 ≤ d ∧ d ≤ s.cfg.apCap
  | .apSetgain _ _ => True
  | .apProcess _ _ => True
  | .apClear _ => True

/-- Two states that a command of unit `u` cannot tell apart: the same configuration, fault registers and unit, and the same count of
NaN draws where the unit computes. -/
abbrev SameFor (u : UnitId) (s s' : State) : Prop :=
  s.cfg = s'.cfg ∧ s.fault = s'.fault ∧ s.fcode = s'.fcode ∧
    match u with
    | .rs => s.rs = s'.rs
    | .dl => s.dl = s'.dl ∧ s.nanDraws = s'.nanDraws
    | .ap => s.ap = s'.ap ∧ s.nanDraws = s'.nanDraws

/-! ### The states commands leave

Each is `s` with exactly the parts a command of that unit may change. -/

/-- An accepted RS command: the store, the owner, the response. -/
def State.afterRs (s : State) (ctx : Ctx) (S : Store) (q : List Item) : State :=
  { s with
    rs := { store := S, owner := { bound := true, ctx := ctx } }
    port := { s.port with outbox := okResponse q :: s.port.outbox } }

/-- An accepted DL command: the unit's registers and store, the owner, the count of NaN draws, the response. -/
def State.afterDl (s : State) (ctx : Ctx) (S : Store) (dint : Nat) (dfrac : Item) (draws : Nat) (q : List Item) : State :=
  { s with
    dl := { store := S, dint := dint, dfrac := dfrac, owner := { bound := true, ctx := ctx } }
    nanDraws := draws
    port := { s.port with outbox := okResponse q :: s.port.outbox } }

/-- An accepted AP command: the two stores, the gain, the owner, the count of NaN draws, the response. -/
def State.afterAp (s : State) (ctx : Ctx) (ff fb : Store) (gain : Item) (draws : Nat) (q : List Item) : State :=
  { s with
    ap := { ff := ff, fb := fb, gain := gain, owner := { bound := true, ctx := ctx } }
    nanDraws := draws
    port := { s.port with outbox := okResponse q :: s.port.outbox } }

/-- A command that raised a fault: the fault registers and the response (60_exceptions.md R173). -/
def State.afterFault (s : State) (code : BitVec 8) : State :=
  { s with
    fault := true
    fcode := code
    port := { s.port with outbox := { w := statusWord code 0, q := [] } :: s.port.outbox } }

/-- A command that found CORE halted: the response (R174). -/
def State.afterHalted (s : State) : State :=
  { s with port := { s.port with outbox := { w := statusWord (0x80#8 + s.fcode) 0, q := [] } :: s.port.outbox } }

/-- The event at the head of the inbox taken. -/
def State.withInbox (s : State) (rest : List HostEvent) : State := { s with port := { s.port with inbox := rest } }

/-! ### Runs of commands -/

/-- Execute commands one after the other, stopping where one does not answer a next state (20_memory.md R59). -/
def execEach : List Instr → State → Host.Outcome State Fault Refusal
  | [], s => .next s
  | i :: is, s =>
    match exec i s with
    | .next t => execEach is t
    | .fault e => .fault e
    | .refused r => .refused r

/-- Single-item writes of a list, in order (20_memory.md R53). -/
def writeEach (cap : Nat) : Store → List Item → Except Fault Store
  | S, [] => .ok S
  | S, v :: vs => do
    let S' ← stWrite cap S v
    writeEach cap S' vs

end Sys2Proof.Machine
end

