-- ==== Sys2Proof/Certificates/Slice0/Obligations.lean ====
section
/-! DEFINITION. What the provers are asked to prove about CORE, from the numbered rules of spec/. -/

open Sys2Proof Sys2Proof.Machine

/-! ### Encoding (30_encoding.md) -/

/-- R71 to R75, R80: the words of every well-formed command decode to it (`RS.READ` to `RS.READH`). -/
def Obligations.DecodeOfEncodeIsTheCommand : Prop :=
  ∀ i : Instr, i.wf = true → decode (encode i).1 (encode i).2 = .ok i.canon

/-- R71 to R75, R78: a command the decoder reads is well-formed and its words are exactly those read, so no bit is dropped. -/
def Obligations.EncodeOfDecodeIsTheWords : Prop :=
  ∀ (h : Word) (p : List Word) (i : Instr), decode h p = .ok i → i.wf = true ∧ encode i = (h, p)

/-- R78: `decode` is `ILLEGAL` exactly under one of the four conditions of the rule and is the command of these very words otherwise; an
`ILLEGAL` command that reaches a running CORE raises `F_ILLEGAL` and changes nothing else. -/
def Obligations.DecodeIsIllegalExactlyWhen : Prop :=
  (∀ (h : Word) (p : List Word), (∃ e, decode h p = .error e) ∨ ∃ i, decode h p = .ok i ∧ encode i = (h, p)) ∧
  (∀ (s : State) (h : Word) (p : List Word) (rest : List HostEvent) (e : Illegal),
    cfgValid s.cfg = true → s.port.inbox = .command h p :: rest → s.fault = false → decode h p = .error e →
    step s = .next ((s.withInbox rest).afterFault 0x01#8)) ∧
  ∀ (h : Word) (p : List Word),
    (∃ e, decode h p = .error e) ↔
      (∀ op : Opcode, op.byte ≠ h.extractLsb' 56 8) ∨
      h.extractLsb' 32 16 ≠ 0#16 ∨
      (∃ op : Opcode, op.byte = h.extractLsb' 56 8 ∧ (op.format = .h0 ∨ op.format = .hp) ∧ h.extractLsb' 0 32 ≠ 0#32) ∨
      (∃ op : Opcode, op.byte = h.extractLsb' 56 8 ∧
        p.length ≠ match op.format with
          | .h0 => 0
          | .ha => 0
          | .hp => 1
          | .hb => (h.extractLsb' 0 32).toNat)

/-- R75: a header selects a row of the table exactly when `H AND mask = match`; the decoded command is of that row. -/
def Obligations.HeaderSelectsItsTableRow : Prop :=
  ∀ (h : Word) (op : Opcode),
    (h &&& op.mask = op.pattern ↔ ∃ p i, decode h p = .ok i ∧ i.opcode = op)

/-- R75: no header is of two rows of the table. -/
def Obligations.TableRowsDoNotOverlap : Prop :=
  ∀ (h : Word) (a b : Opcode), h &&& a.mask = a.pattern → h &&& b.mask = b.pattern → a = b

/-- R81: the worked encodings, text to words to command. -/
def Obligations.WorkedEncodings : Prop :=
  (decode 0x0101000000000000#64 [0x3FF0000000000000#64] = .ok (.rsWrite 1#8 0x3FF0000000000000#64)) ∧
  (decode 0x0301000000000003#64 [] = .ok (.rsReadh 1#8 3)) ∧
  (decode 0x05010000FFFFFFFF#64 [] = .ok (.rsReadat 1#8 (-1))) ∧
  (decode 0x0601000000000003#64 [] = .ok (.rsResize 1#8 3)) ∧
  (decode 0x07FF000000000000#64 [] = .ok (.rsClear 255#8)) ∧
  (decode 0x1002000000000000#64 [0x4004000000000000#64] = .ok (.dlSetdelay 2#8 0x4004000000000000#64)) ∧
  (decode 0x2003000000000004#64 [] = .ok (.apSetlen 3#8 4)) ∧
  (decode 0x2203000000000000#64 [0x3FF0000000000000#64] = .ok (.apProcess 3#8 0x3FF0000000000000#64))

/-- R76: the fields of a status word. -/
def Obligations.StatusWordFields : Prop :=
  ∀ (status : BitVec 8) (count : Nat), count < 4294967296 →
    (statusWord status count).extractLsb' 56 8 = status ∧
    (statusWord status count).extractLsb' 32 24 = 0#24 ∧
    ((statusWord status count).extractLsb' 0 32).toNat = count

/-- R79, R80: every line the assembler accepts stands for well-formed commands only. -/
def Obligations.AssembledCommandsAreWellFormed : Prop :=
  ∀ (line : List Char) (is : List Instr), assembleLine line = some is → ∀ i ∈ is, i.wf = true

/-! ### The envelope, faults and ownership (60_exceptions.md) -/

/-- R170: a legal command that reaches a running CORE is executed: the step is `exec` of it, the event taken from the inbox. -/
def Obligations.StepRunsTheDecodedCommand : Prop :=
  ∀ (s : State) (h : Word) (p : List Word) (rest : List HostEvent) (i : Instr),
    cfgValid s.cfg = true → s.port.inbox = .command h p :: rest → s.fault = false → decode h p = .ok i →
    step s = exec i (s.withInbox rest)

/-- R174: a halted CORE answers every command, decoded or not, with `0x80 + FCODE` and no data, and changes nothing; no step but a
RESET clears the halt or changes `FCODE`. -/
def Obligations.HaltedCoreExecutesNothing : Prop :=
  (∀ (s : State) (h : Word) (p : List Word) (rest : List HostEvent),
    cfgValid s.cfg = true → s.port.inbox = .command h p :: rest → s.fault = true →
    step s = .next (s.withInbox rest).afterHalted) ∧
  (∀ (s : State) (i : Instr), s.fault = true → exec i s = .next s.afterHalted) ∧
  (∀ s t : State, s.fault = true → step s = .next t → s.port.inbox.head? ≠ some .reset →
    t.fault = true ∧ t.fcode = s.fcode ∧ t.rs = s.rs ∧ t.dl = s.dl ∧ t.ap = s.ap)

/-- R173, R10: a command that faults writes the two fault registers and answers its code, one of the seven of R172; nothing else
changes. -/
def Obligations.FaultEntryChangesNothingElse : Prop :=
  ∀ (s t : State) (h : Word) (p : List Word) (rest : List HostEvent),
    s.port.inbox = .command h p :: rest → s.fault = false → step s = .next t → t.fault = true →
    ∃ c : FaultCode, t = (s.withInbox rest).afterFault c.byte

/-- R176: a command raises `F_OWNER`, with no other effect, exactly when its unit is bound to another context, whatever the command and
its argument. -/
def Obligations.ForeignContextFaults : Prop :=
  ∀ (s : State) (i : Instr), s.fault = false →
    (exec i s = .next (s.afterFault 0x02#8) ↔ (s.owner i.unit).bound = true ∧ (s.owner i.unit).ctx ≠ i.ctx)

/-- R177: the first accepted command binds its unit to its context; a command that faults binds nothing; a bound unit keeps its
owner; no other unit's owner changes; no step but a RESET changes the owner of a bound unit. -/
def Obligations.FirstAcceptedCommandBindsTheOwner : Prop :=
  (∀ (s t : State) (i : Instr), exec i s = .next t →
    (t.fault = false → t.owner i.unit = { bound := true, ctx := i.ctx }) ∧
    (t.fault = true → t.owner i.unit = s.owner i.unit) ∧
    ((s.owner i.unit).bound = true → t.owner i.unit = s.owner i.unit) ∧
    (∀ u, u ≠ i.unit → t.owner u = s.owner u)) ∧
  (∀ (s t : State) (u : UnitId), step s = .next t → s.port.inbox.head? ≠ some .reset → (s.owner u).bound = true →
    t.owner u = s.owner u)

/-- R172, R181: an accepted command faults exactly when its own argument check fails. -/
def Obligations.CommandFaultsExactlyOnItsArgument : Prop :=
  ∀ (s : State) (i : Instr), s.Inv → s.Accepts i.unit i.ctx →
    ∃ t, exec i s = .next t ∧ (t.fault = true ↔ ¬ ArgOk s i)

/-- R172 `F_BLOCKLEN`: a block longer than the window. -/
def Obligations.BlockLongerThanWindowFaults : Prop :=
  ∀ (s : State) (ctx : Ctx) (n : Nat) (vs : List Item), s.Accepts .rs ctx → s.rs.store.lsize < n → vs.length = n →
    exec (.rsWriteb ctx vs) s = .next (s.afterFault 0x03#8) ∧
    exec (.rsReadh ctx n) s = .next (s.afterFault 0x03#8) ∧
    exec (.rsRead ctx n) s = .next (s.afterFault 0x03#8) ∧
    exec (.rsReadt ctx n) s = .next (s.afterFault 0x03#8)

/-- R172 `F_RESIZE` and `F_DLEN`: a size of 0 or beyond the capacity. -/
def Obligations.SizeOutOfRangeFaults : Prop :=
  (∀ (s : State) (ctx : Ctx) (n : Nat), s.Accepts .rs ctx → (n = 0 ∨ s.cfg.rsCap < n) →
    exec (.rsResize ctx n) s = .next (s.afterFault 0x04#8)) ∧
  (∀ (s : State) (ctx : Ctx) (d : Nat), s.Accepts .ap ctx → (d = 0 ∨ s.cfg.apCap < d) →
    exec (.apSetlen ctx d) s = .next (s.afterFault 0x05#8))

/-- R172 `F_INDEX` and `F_DELAYNAN`. -/
def Obligations.IndexAndNaNDelayFault : Prop :=
  (∀ (s : State) (ctx : Ctx) (p : Nat), s.Accepts .rs ctx → s.cfg.rsCap ≤ p →
    exec (.rsItemat ctx p) s = .next (s.afterFault 0x06#8)) ∧
  (∀ (s : State) (ctx : Ctx) (d : Item), s.Accepts .dl ctx → isNaN d = true →
    exec (.dlSetdelay ctx d) s = .next (s.afterFault 0x07#8))

/-! ### The ring store (40_ringstore.md, 20_memory.md) -/

/-- R52: translation answers the Euclidean remainder and never leaves the window. -/
def Obligations.TranslationStaysInTheWindow : Prop :=
  ∀ (cap : Nat) (S : Store) (k : Int), Store.Ok cap S →
    ∃ p : Nat, phys S k = .ok p ∧ p < S.lsize ∧ p < cap ∧ ∃ j : Int, (S.wc : Int) + k = j * S.lsize + p

/-- R100: `RS.WRITE` stores the item at the cursor and moves the cursor by one, modulo the window. -/
def Obligations.RsWriteStoresAtTheCursor : Prop :=
  ∀ (s : State) (ctx : Ctx) (v : Item), Store.Ok s.cfg.rsCap s.rs.store → s.Accepts .rs ctx →
    ∃ m, exec (.rsWrite ctx v) s =
        .next (s.afterRs ctx { lsize := s.rs.store.lsize, wc := (s.rs.store.wc + 1) % s.rs.store.lsize, items := m } []) ∧
      Memory.wf m = true ∧
      ∀ p, Memory.read m p = if p = s.rs.store.wc then v else Memory.read s.rs.store.items p

/-- R101: `RS.WRITEB` stores item `i` of the block at `(WC + i) mod LSIZE`, nothing else, and moves the cursor by the length. -/
def Obligations.RsWritebStoresTheBlock : Prop :=
  ∀ (s : State) (ctx : Ctx) (vs : List Item), Store.Ok s.cfg.rsCap s.rs.store → s.Accepts .rs ctx →
    vs.length ≤ s.rs.store.lsize →
    ∃ m, exec (.rsWriteb ctx vs) s =
        .next (s.afterRs ctx
          { lsize := s.rs.store.lsize, wc := (s.rs.store.wc + vs.length) % s.rs.store.lsize, items := m } []) ∧
      Memory.wf m = true ∧
      (∀ (i : Nat) (h : i < vs.length), Memory.read m ((s.rs.store.wc + i) % s.rs.store.lsize) = vs[i]) ∧
      (∀ p, (∀ i, i < vs.length → p ≠ (s.rs.store.wc + i) % s.rs.store.lsize) →
        Memory.read m p = Memory.read s.rs.store.items p)

/-- R102: `RS.READH`, and `RS.READ`, answer the `N` items before the cursor, oldest first, and write nothing. -/
def Obligations.RsReadHeadAnswersTheNewest : Prop :=
  ∀ (s : State) (ctx : Ctx) (n : Nat), Store.Ok s.cfg.rsCap s.rs.store → s.Accepts .rs ctx → n ≤ s.rs.store.lsize →
    ∃ q : List Item, exec (.rsReadh ctx n) s = .next (s.afterRs ctx s.rs.store q) ∧
      exec (.rsRead ctx n) s = .next (s.afterRs ctx s.rs.store q) ∧
      q.length = n ∧
      ∀ (i : Nat) (h : i < q.length),
        q[i] = Memory.read s.rs.store.items
          (((((s.rs.store.wc : Int) - n) % s.rs.store.lsize + i) % s.rs.store.lsize).toNat)

/-- R103: `RS.READT` answers `N` items from the cursor on and writes nothing. -/
def Obligations.RsReadTailAnswersTheOldest : Prop :=
  ∀ (s : State) (ctx : Ctx) (n : Nat), Store.Ok s.cfg.rsCap s.rs.store → s.Accepts .rs ctx → n ≤ s.rs.store.lsize →
    ∃ q : List Item, exec (.rsReadt ctx n) s = .next (s.afterRs ctx s.rs.store q) ∧
      q.length = n ∧
      ∀ (i : Nat) (h : i < q.length),
        q[i] = Memory.read s.rs.store.items ((s.rs.store.wc + i) % s.rs.store.lsize)

/-- R104: `RS.READAT` answers the item at `(WC + k) mod LSIZE` for every offset and writes nothing. -/
def Obligations.RsReadAtNeverLeavesTheWindow : Prop :=
  ∀ (s : State) (ctx : Ctx) (k : Int), Store.Ok s.cfg.rsCap s.rs.store → s.Accepts .rs ctx →
    exec (.rsReadat ctx k) s = .next (s.afterRs ctx s.rs.store
      [Memory.read s.rs.store.items (((s.rs.store.wc : Int) + k) % s.rs.store.lsize).toNat])

/-- R105: `RS.RESIZE` writes the size and reduces the cursor modulo it in the same step; no item is touched. -/
def Obligations.RsResizeReducesTheCursor : Prop :=
  ∀ (s : State) (ctx : Ctx) (n : Nat), s.Accepts .rs ctx → 1 ≤ n → n ≤ s.cfg.rsCap →
    exec (.rsResize ctx n) s =
      .next (s.afterRs ctx { lsize := n, wc := s.rs.store.wc % n, items := s.rs.store.items } [])

/-- R106: `RS.CLEAR` makes every slot zero; cursor and size stay. -/
def Obligations.RsClearZeroesEverySlot : Prop :=
  ∀ (s : State) (ctx : Ctx), s.Accepts .rs ctx →
    ∃ m, exec (.rsClear ctx) s =
        .next (s.afterRs ctx { lsize := s.rs.store.lsize, wc := s.rs.store.wc, items := m } []) ∧
      ∀ p, Memory.read m p = 0#64

/-- R107: `RS.ITEMAT` answers the item at a physical index inside the capacity, in the window or not, and writes nothing. -/
def Obligations.RsItemAtReadsThePhysicalSlot : Prop :=
  ∀ (s : State) (ctx : Ctx) (p : Nat), s.Accepts .rs ctx → p < s.cfg.rsCap →
    exec (.rsItemat ctx p) s = .next (s.afterRs ctx s.rs.store [Memory.read s.rs.store.items p])

/-- R120: the two-copy form of the block operations. -/
def Obligations.BlocksAreTwoContiguousCopies : Prop :=
  ∀ (cap : Nat) (S : Store) (vs : List Item) (n start : Nat), Store.Ok cap S → start < S.lsize →
    (n ≤ S.lsize → ∃ a b, memRead cap S.items start (min n (S.lsize - start)) = .ok a ∧
      memRead cap S.items 0 (n - min n (S.lsize - start)) = .ok b ∧
      readRun cap S.lsize S.items start n = .ok (a ++ b)) ∧
    (vs.length ≤ S.lsize → ∃ m m', memWrite cap S.items start (vs.take (S.lsize - start)) = .ok m ∧
      memWrite cap m 0 (vs.drop (S.lsize - start)) = .ok m' ∧
      writeRun cap S.lsize S.items start vs = .ok m')

/-- R122: shrinking and growing back leaves the items and the size, and the cursor reduced modulo the smaller size. -/
def Obligations.ShrinkThenGrowKeepsTheItems : Prop :=
  ∀ (s : State) (ctx : Ctx) (m : Nat), s.Inv → s.Accepts .rs ctx → 1 ≤ m → m < s.rs.store.lsize →
    ∃ t, execEach [.rsResize ctx m, .rsResize ctx s.rs.store.lsize] s = .next t ∧
      t.rs.store = { lsize := s.rs.store.lsize, wc := s.rs.store.wc % m, items := s.rs.store.items } ∧
      (t.rs.store.wc = s.rs.store.wc ↔ s.rs.store.wc < m)

/-- R53: after single writes and nothing else, the item of age `a` is at the logical offsets `-1 - a` and `LSIZE - 1 - a`. -/
def Obligations.OffsetsNameAges : Prop :=
  ∀ (cap : Nat) (S : Store) (vs : List Item), Store.Ok cap S →
    ∃ S', writeEach cap S vs = .ok S' ∧ S'.lsize = S.lsize ∧
      ∀ (a : Nat) (h : a < vs.length), a < S.lsize →
        stReadAt cap S' (-1 - (a : Int)) = .ok (vs[vs.length - 1 - a]) ∧
        stReadAt cap S' ((S.lsize : Int) - 1 - a) = .ok (vs[vs.length - 1 - a])

/-! ### The delay line (41_delayline.md) -/

/-- R130: the request is clamped to `[0, DL_MAXD]` and split exactly into a floor and a fraction in `[0, 1)`, never `-0`; the store is
not touched. -/
def Obligations.DlSetdelayClampsAndSplits : Prop :=
  ∀ (s : State) (ctx : Ctx) (d : Item), cfgValid s.cfg = true → s.Accepts .dl ctx → isNaN d = false →
    ∃ (n : Nat) (f : Item),
      exec (.dlSetdelay ctx d) s = .next (s.afterDl ctx s.dl.store n f s.nanDraws []) ∧
      signBit f = false ∧ mag f < oneMag ∧
      (if val d ≤ 0 then n = 0 ∧ f = 0#64
       else if ((s.cfg.dlMaxd * oneMag : Nat) : Int) ≤ val d then n = s.cfg.dlMaxd ∧ f = 0#64
       else ((n * oneMag + mag f : Nat) : Int) = val d)

/-- R131, R133: the input is written at the cursor, then tap `r` is the item at offset `C - 1 - DINT - r` from the new cursor, and the
output is the configured interpolation of the four taps. -/
def Obligations.DlProcessWritesThenInterpolates : Prop :=
  ∀ (s : State) (ctx : Ctx) (x : Item), s.Inv → s.Accepts .dl ctx →
    ∃ m, Memory.wf m = true ∧
      (∀ p, Memory.read m p = if p = s.dl.store.wc then x else Memory.read s.dl.store.items p) ∧
      let C := s.cfg.dlMaxd + s.cfg.dlGuard
      let wc := (s.dl.store.wc + 1) % C
      let tap : Int → Item := fun r => Memory.read m (((wc : Int) + ((C : Int) - 1 - s.dl.dint - r)) % C).toNat
      exec (.dlProcess ctx x) s = .next (s.afterDl ctx { lsize := C, wc := wc, items := m } s.dl.dint s.dl.dfrac (s.nanDraws + 4)
        [interp s.cfg.dlMode s.nanDraws (tap (-1)) (tap 0) (tap 1) (tap 2) s.dl.dfrac])

/-- R132: `DL.CLEAR` makes every slot zero; the delay and the cursor stay. -/
def Obligations.DlClearKeepsDelayAndCursor : Prop :=
  ∀ (s : State) (ctx : Ctx), s.Accepts .dl ctx →
    ∃ m, exec (.dlClear ctx) s =
        .next (s.afterDl ctx { lsize := s.dl.store.lsize, wc := s.dl.store.wc, items := m } s.dl.dint s.dl.dfrac s.nanDraws []) ∧
      ∀ p, Memory.read m p = 0#64

/-- R134 to R136: what each mode computes. -/
def Obligations.InterpolationByMode : Prop :=
  ∀ (k : Nat) (a b c d f : Item),
    interp .none k a b c d f = b ∧
    interp .linear k a b c d f = fadd (k + 3) (fmul (k + 1) (fsub k 0x3FF0000000000000#64 f) b) (fmul (k + 2) f c) ∧
    interp .cubic4 k a b c d f = Config.interpCubic4.fn a b c d f

/-- R137: every interpolator has P_INTERP0, whatever NaNs are drawn: `NONE` and `LINEAR` by what they compute, `CUBIC4` because R4 admits
no other function (log 4). -/
def Obligations.EveryInterpolatorHasPInterp0 : Prop :=
  ∀ (mode : DlMode) (k : Nat), PInterp0 (interp mode k)

/-- R138: after a delay of 0 is set, a finite input comes back as a number, given finite history; in mode `NONE` every
input comes back bit for bit. -/
def Obligations.DelayZeroIdentity : Prop :=
  ∀ (s : State) (ctx : Ctx) (x : Item), s.Inv → s.Accepts .dl ctx →
    ∃ t y, execEach [.dlSetdelay ctx 0#64, .dlProcess ctx x] s = .next t ∧
      t.port.outbox.head? = some (okResponse [y]) ∧
      (s.cfg.dlMode = .none → y = x) ∧
      (isFinite x = true → (∀ p, isFinite (Memory.read s.dl.store.items p) = true) →
        val y = val x)

/-- R140: with a fraction of 0 and at least `DINT + 1` calls, the last output is the input `DINT` calls earlier: bit for bit in mode
`NONE`, as a number in every mode given finite inputs and finite history. -/
def Obligations.IntegerDelaysAreExact : Prop :=
  ∀ (s : State) (ctx : Ctx) (xs : List Item) (h : s.dl.dint < xs.length), s.Inv → s.Accepts .dl ctx → s.dl.dfrac = 0#64 →
    ∃ t y, execEach (xs.map (Instr.dlProcess ctx)) s = .next t ∧
      t.port.outbox.head? = some (okResponse [y]) ∧
      (s.cfg.dlMode = .none → y = xs[xs.length - 1 - s.dl.dint]) ∧
      ((∀ x ∈ xs, isFinite x = true) → (∀ p, isFinite (Memory.read s.dl.store.items p) = true) →
        val y = val (xs[xs.length - 1 - s.dl.dint]))

/-! ### The allpass (42_allpass.md) -/

/-- R150: both stores take the new size and reduce their cursors; no item is touched. -/
def Obligations.ApSetlenResizesBothStores : Prop :=
  ∀ (s : State) (ctx : Ctx) (d : Nat), s.Accepts .ap ctx → 1 ≤ d → d ≤ s.cfg.apCap →
    exec (.apSetlen ctx d) s = .next (s.afterAp ctx
      { lsize := d, wc := s.ap.ff.wc % d, items := s.ap.ff.items }
      { lsize := d, wc := s.ap.fb.wc % d, items := s.ap.fb.items } s.ap.gain s.nanDraws [])

/-- R151: the gain is stored as given, whatever it is. -/
def Obligations.ApSetgainStoresUnchecked : Prop :=
  ∀ (s : State) (ctx : Ctx) (g : Item), s.Accepts .ap ctx →
    exec (.apSetgain ctx g) s = .next (s.afterAp ctx s.ap.ff s.ap.fb g s.nanDraws [])

/-- R152: the two oldest samples are read, the output computed with three rounded operations, and the input and the output written
over them; both cursors move by one. -/
def Obligations.ApProcessReadsThenWrites : Prop :=
  ∀ (s : State) (ctx : Ctx) (x : Item), s.Inv → s.Accepts .ap ctx →
    ∃ ff fb, Memory.wf ff = true ∧ Memory.wf fb = true ∧
      let x1 := Memory.read s.ap.ff.items s.ap.ff.wc
      let y1 := Memory.read s.ap.fb.items s.ap.fb.wc
      let y := fadd (s.nanDraws + 2) x1 (fmul (s.nanDraws + 1) s.ap.gain (fsub s.nanDraws x y1))
      (∀ p, Memory.read ff p = if p = s.ap.ff.wc then x else Memory.read s.ap.ff.items p) ∧
      (∀ p, Memory.read fb p = if p = s.ap.fb.wc then y else Memory.read s.ap.fb.items p) ∧
      exec (.apProcess ctx x) s = .next (s.afterAp ctx
        { lsize := s.ap.ff.lsize, wc := (s.ap.ff.wc + 1) % s.ap.ff.lsize, items := ff }
        { lsize := s.ap.fb.lsize, wc := (s.ap.fb.wc + 1) % s.ap.fb.lsize, items := fb } s.ap.gain (s.nanDraws + 3) [y])

/-- R153: `AP.CLEAR` makes every slot of both stores zero; cursors, length and gain stay. -/
def Obligations.ApClearZeroesBothStores : Prop :=
  ∀ (s : State) (ctx : Ctx), s.Accepts .ap ctx →
    ∃ ff fb, exec (.apClear ctx) s = .next (s.afterAp ctx
        { lsize := s.ap.ff.lsize, wc := s.ap.ff.wc, items := ff }
        { lsize := s.ap.fb.lsize, wc := s.ap.fb.wc, items := fb } s.ap.gain s.nanDraws []) ∧
      ∀ p, Memory.read ff p = 0#64 ∧ Memory.read fb p = 0#64

/-- R154: with zero histories, call `n` answers `y[n] = x[n-D] + g (x[n] - y[n-D])`, each operation rounded, where samples before the
first are `+0`. -/
def Obligations.AllpassDifferenceEquation : Prop :=
  ∀ (s : State) (ctx : Ctx) (xs : List Item), s.Inv → s.Accepts .ap ctx →
    (∀ p, Memory.read s.ap.ff.items p = 0#64 ∧ Memory.read s.ap.fb.items p = 0#64) →
    ∃ (t : State) (ys : List Item), execEach (xs.map (Instr.apProcess ctx)) s = .next t ∧
      ys.length = xs.length ∧
      t.port.outbox = (ys.map (fun y => okResponse [y])).reverse ++ s.port.outbox ∧
      ∀ n, n < xs.length →
        let k := s.nanDraws + 3 * n
        let D := s.ap.ff.lsize
        let xD := if n < D then 0#64 else xs.getD (n - D) 0#64
        let yD := if n < D then 0#64 else ys.getD (n - D) 0#64
        ys.getD n 0#64 = fadd (k + 2) xD (fmul (k + 1) s.ap.gain (fsub k (xs.getD n 0#64) yD))

/-! ### Sample arithmetic (00_scope.md R9) -/

/-- R9: a sum of finite samples is the nearest binary64 to the exact sum, ties to even; it is infinite exactly from the rounding
threshold `2^1024 - 2^970` on, with the sign of the sum. -/
def Obligations.AdditionIsCorrectlyRounded : Prop :=
  ∀ (k : Nat) (a b : Item), isFinite a = true → isFinite b = true →
    let z := val a + val b
    let r := fadd k a b
    isNaN r = false ∧
    (isFinite r = true → ∀ w, isFinite w = true →
      (val r - z).natAbs ≤ (val w - z).natAbs ∧
      ((val w - z).natAbs = (val r - z).natAbs → val w ≠ val r → r.getLsbD 0 = false)) ∧
    (isInf r = true ↔ (2 ^ 54 - 1) * 2 ^ 2044 ≤ z.natAbs) ∧
    (z ≠ 0 → signBit r = decide (z < 0)) ∧
    (z = 0 → signBit r = (signBit a && signBit b))

/-- R9: a product of finite samples is the nearest binary64 to the exact product (in units of `2^-2148`), ties to even; its sign is the
product of the signs, a zero's too. -/
def Obligations.MultiplicationIsCorrectlyRounded : Prop :=
  ∀ (k : Nat) (a b : Item), isFinite a = true → isFinite b = true →
    let z := val a * val b
    let r := fmul k a b
    isNaN r = false ∧
    (isFinite r = true → ∀ w, isFinite w = true →
      (val r * oneMag - z).natAbs ≤ (val w * oneMag - z).natAbs ∧
      ((val w * oneMag - z).natAbs = (val r * oneMag - z).natAbs → val w ≠ val r → r.getLsbD 0 = false)) ∧
    (isInf r = true ↔ (2 ^ 54 - 1) * 2 ^ 2044 * oneMag ≤ z.natAbs) ∧
    signBit r = (signBit a != signBit b)

/-- U4: the free choice of a NaN ranges over the NaNs, all of them and nothing else. -/
def Obligations.FreeNaNsAreExactlyTheNaNs : Prop :=
  (∀ i : Fin nanCount, isNaN (nanOfIndex i) = true) ∧ (∀ w : Item, isNaN w = true → ∃ i : Fin nanCount, nanOfIndex i = w)

/-- U4: whether an output is a NaN, and which number it is otherwise, does not depend on the NaNs drawn. -/
def Obligations.DrawsOnlyChooseTheNaN : Prop :=
  ∀ (k k' : Nat) (a b c d f : Item),
    (isNaN (allpassOut k a b c d) = isNaN (allpassOut k' a b c d) ∧
      (isNaN (allpassOut k a b c d) = false → allpassOut k a b c d = allpassOut k' a b c d)) ∧
    (isNaN (interpLinear k a b c d f) = isNaN (interpLinear k' a b c d f) ∧
      (isNaN (interpLinear k a b c d f) = false → interpLinear k a b c d f = interpLinear k' a b c d f))

/-! ### Reset and the whole machine -/

/-- R200, R30: RESET gives every piece of CORE's state its reset value and leaves the configuration; no other step clears `FAULT` or
unbinds an owner. -/
def Obligations.ResetGivesTheResetState : Prop :=
  (∀ s t : State, step s = .next t → s.port.inbox.head? ≠ some .reset →
    (s.fault = true → t.fault = true) ∧ ∀ u, (s.owner u).bound = true → (t.owner u).bound = true) ∧
  ∀ (s : State) (rest : List HostEvent), cfgValid s.cfg = true → s.port.inbox = .reset :: rest →
    ∃ t, step s = .next t ∧ t.cfg = s.cfg ∧
      t.rs.store.lsize = s.cfg.rsSize0 ∧ t.rs.store.wc = 0 ∧ (∀ p, Memory.read t.rs.store.items p = 0#64) ∧
      t.dl.store.lsize = s.cfg.dlMaxd + s.cfg.dlGuard ∧ t.dl.store.wc = 0 ∧ (∀ p, Memory.read t.dl.store.items p = 0#64) ∧
      (t.dl.dint, t.dl.dfrac) = clampSplit 0 s.cfg.dlMaxd s.cfg.dlDelay0 ∧
      t.ap.ff.lsize = s.cfg.apLen0 ∧ t.ap.ff.wc = 0 ∧ (∀ p, Memory.read t.ap.ff.items p = 0#64) ∧
      t.ap.fb.lsize = s.cfg.apLen0 ∧ t.ap.fb.wc = 0 ∧ (∀ p, Memory.read t.ap.fb.items p = 0#64) ∧
      t.ap.gain = s.cfg.apGain0 ∧
      t.rs.owner.bound = false ∧ t.dl.owner.bound = false ∧ t.ap.owner.bound = false ∧
      t.fault = false ∧ t.fcode = 0x00#8

/-- RESET takes its event from the host's side of the port and leaves the responses and the count of NaN draws, which are the model's
own and not state of CORE (log 2, log 3). -/
def Obligations.ResetLeavesThePortAndTheDraws : Prop :=
  ∀ (s : State) (rest : List HostEvent), cfgValid s.cfg = true → s.port.inbox = .reset :: rest →
    ∃ t, step s = .next t ∧ t.port = { s.port with inbox := rest } ∧ t.nanDraws = s.nanDraws

/-- R5, R183: a configuration outside `CFG_VALID` builds no block: every step is refused. -/
def Obligations.InvalidConfigurationIsRefused : Prop :=
  ∀ s : State, cfgValid s.cfg = false → step s = .refused .invalidConfiguration

/-- R21, R24, R26, R28, R30: the reset state of every valid configuration meets the invariant. -/
def Obligations.ResetStateMeetsTheInvariant : Prop :=
  ∀ c : Config, cfgValid c = true → (State.resetWith c).Inv

/-- The fixed reset state, in the configuration CFG-A (log 1), meets the invariant. -/
def Obligations.FixedResetStateMeetsTheInvariant : Prop :=
  State.reset.Inv

/-- R21, R24, R26, R28, R32: every step keeps the invariant. -/
def Obligations.EveryStepKeepsTheInvariant : Prop :=
  ∀ s t : State, s.Inv → step s = .next t → t.Inv

/-- R8, R121: from a state that meets the invariant every step answers a next state: no access leaves a store, no remainder is taken
modulo 0, every command terminates with its effect, its fault or its refusal by a halted CORE. -/
def Obligations.EveryStepAnswersANextState : Prop :=
  ∀ s : State, s.Inv → ∃ t, step s = .next t

/-- R70: each command is answered by exactly one response, and the event is taken from the inbox. -/
def Obligations.OneResponseForEachCommand : Prop :=
  ∀ (s : State) (h : Word) (p : List Word) (rest : List HostEvent), s.Inv → s.port.inbox = .command h p :: rest →
    ∃ t r, step s = .next t ∧ t.port = { inbox := rest, outbox := r :: s.port.outbox } ∧
      (r.w.extractLsb' 56 8 ≠ 0#8 → r.q = [])

/-- R184, R178: with nothing pending CORE holds its state. -/
def Obligations.NothingPendingHoldsTheState : Prop :=
  ∀ s : State, cfgValid s.cfg = true → s.port.inbox = [] → step s = .next s

/-- R22, R23, R25, R31: a command writes no unit but its own, never the configuration, and takes nothing more from the inbox. -/
def Obligations.CommandWritesOnlyItsUnit : Prop :=
  ∀ (s t : State) (i : Instr), exec i s = .next t →
    (i.unit ≠ .rs → t.rs = s.rs) ∧ (i.unit ≠ .dl → t.dl = s.dl) ∧ (i.unit ≠ .ap → t.ap = s.ap) ∧
    t.cfg = s.cfg ∧ t.port.inbox = s.port.inbox

/-- R59, R176, R170: what a command does and answers depends on nothing but its own unit, the configuration, the fault registers `FAULT`
and `FCODE`, and, for the units that compute (DL, AP), the count of NaN draws, which is the model's own and shared by the two (log 3).
So no other unit's state takes part but through what that count has reached, which says only which NaN a NaN result is (U4). -/
def Obligations.CommandSeesOnlyItsUnit : Prop :=
  ∀ (s s' t : State) (i : Instr), SameFor i.unit s s' → exec i s = .next t →
    ∃ t', exec i s' = .next t' ∧ SameFor i.unit t t' ∧ t.port.outbox.head? = t'.port.outbox.head?
end

