-- ==== Sys2Proof/Laws/Binary64.lean ====
section
/-! SUPPORT. Facts about the binary64 operations (00_scope.md R9): fields and magnitudes determine each other, rounding leaves a
representable magnitude alone, and the exact cases the command rules use. -/

namespace Sys2Proof.Machine

/-! ### Fields -/

theorem fracField_lt (w : Item) : fracField w < 4503599627370496 := Nat.mod_lt _ (by norm_num)

theorem expField_lt (w : Item) : expField w < 2048 := Nat.mod_lt _ (by norm_num)

theorem signBit_eq (w : Item) : signBit w = decide (9223372036854775808 ≤ w.toNat) := by
  simp [signBit, BitVec.msb_eq_decide]

/-- A word is its sign, its exponent field and its fraction field (30_encoding.md R74). -/
theorem toNat_fields (w : Item) :
    w.toNat = (if signBit w then 9223372036854775808 else 0) + expField w * 4503599627370496 + fracField w := by
  have h := w.isLt
  rw [signBit_eq]
  simp only [expField, fracField, decide_eq_true_eq]
  split <;> omega

/-- The fields of a word written out from a sign and 63 low bits. -/
theorem fields_ofNat (neg : Bool) {body : Nat} (h : body < 9223372036854775808) :
    signBit (BitVec.ofNat 64 (if neg then 9223372036854775808 + body else body)) = neg ∧
    expField (BitVec.ofNat 64 (if neg then 9223372036854775808 + body else body)) = body / 4503599627370496 ∧
    fracField (BitVec.ofNat 64 (if neg then 9223372036854775808 + body else body)) = body % 4503599627370496 := by
  rw [signBit_eq]
  simp only [expField, fracField, BitVec.toNat_ofNat]
  cases neg <;> simp <;> omega

theorem isFinite_iff (w : Item) : isFinite w = true ↔ expField w ≤ 2046 := by
  have := expField_lt w
  simp [isFinite]
  omega

theorem isNaN_false_of_finite {w : Item} (h : isFinite w = true) : isNaN w = false := by
  have := (isFinite_iff w).1 h
  simp [isNaN]
  omega

theorem isInf_false_of_finite {w : Item} (h : isFinite w = true) : isInf w = false := by
  have := (isFinite_iff w).1 h
  simp [isInf]
  omega

/-! ### Magnitudes a binary64 can hold -/

/-- 53 significant bits hold the magnitude, and it is below infinity. -/
def Representable (m : Nat) : Prop := quantum m ∣ m ∧ m < infMag

theorem oneMag_eq : oneMag = 2 ^ 1074 := by delta oneMag; with_reducible rfl

theorem infMag_eq : infMag = 2 ^ 2098 := by delta infMag; with_reducible rfl

theorem oneMag_pos : 0 < oneMag := by rw [oneMag_eq]; positivity

theorem quantum_pos (n : Nat) : 0 < quantum n := by unfold quantum; positivity

theorem quantum_of_lt {n : Nat} (h : n < 9007199254740992) : quantum n = 1 := by
  have : n.log2 ≤ 52 := by
    by_cases h0 : n = 0
    · subst h0; simp
    · have := (Nat.log2_lt h0 (k := 53)).2 (by norm_num; exact h)
      omega
  rw [quantum, Nat.sub_eq_zero_of_le this, pow_zero]

theorem log2_mul_pow {n : Nat} (h : n ≠ 0) (e : Nat) : (n * 2 ^ e).log2 = n.log2 + e := by
  have hp : 0 < 2 ^ e := by positivity
  obtain ⟨h1, h2⟩ := (Nat.log2_eq_iff h).1 (rfl : n.log2 = n.log2)
  rw [Nat.log2_eq_iff (by positivity)]
  constructor
  · rw [pow_add]
    exact Nat.mul_le_mul_right _ h1
  · rw [show n.log2 + e + 1 = n.log2 + 1 + e by omega, pow_add]
    exact Nat.mul_lt_mul_of_pos_right h2 hp

/-- The spacing around a magnitude written as 53 bits and an exponent. -/
theorem log2_significand {f e : Nat} (h : f < 4503599627370496) : ((4503599627370496 + f) * 2 ^ e).log2 = 52 + e := by
  have hp : 0 < 2 ^ e := by positivity
  have h0 : (4503599627370496 + f) * 2 ^ e ≠ 0 := by positivity
  rw [Nat.log2_eq_iff h0]
  constructor
  · rw [pow_add]
    exact Nat.mul_le_mul_right _ (by norm_num)
  · rw [show 52 + e + 1 = 53 + e by omega, pow_add]
    exact Nat.mul_lt_mul_of_pos_right (by norm_num; omega) hp

theorem pow_le_infMag {k : Nat} (h : k ≤ 2098) : 2 ^ k ≤ infMag := by
  rw [infMag_eq]
  generalize 2098 = K at *
  exact Nat.pow_le_pow_right (by norm_num) h

theorem lt_infMag_log2 {m : Nat} (h0 : m ≠ 0) (h : m < infMag) : m.log2 < 2098 := by
  rw [infMag_eq] at h
  generalize 2098 = K at *
  exact (Nat.log2_lt h0).2 h

/-- The greatest exponent keeps a significand below infinity. -/
theorem significand_lt_infMag {f e : Nat} (h : f < 4503599627370496) (he : e ≤ 2045) :
    (4503599627370496 + f) * 2 ^ e < infMag := by
  have h1 : (4503599627370496 + f) * 2 ^ e < 2 ^ 53 * 2 ^ e :=
    Nat.mul_lt_mul_of_pos_right (by norm_num; omega) (by positivity)
  have h2 : 2 ^ 53 * 2 ^ e ≤ infMag := by
    rw [← pow_add]
    exact pow_le_infMag (by omega)
  exact Nat.lt_of_lt_of_le h1 h2

theorem pow52_le_infMag : 4503599627370496 ≤ infMag := by
  have := pow_le_infMag (k := 52) (by norm_num)
  norm_num at this
  exact this

/-- The magnitude of a finite word is representable. -/
theorem representable_mag {w : Item} (h : isFinite w = true) : Representable (mag w) := by
  have he := (isFinite_iff w).1 h
  have hf := fracField_lt w
  rw [mag]
  split
  · refine ⟨?_, Nat.lt_of_lt_of_le hf pow52_le_infMag⟩
    rw [quantum_of_lt (by omega)]
    exact one_dvd _
  · refine ⟨?_, significand_lt_infMag hf (by omega)⟩
    rw [quantum, log2_significand hf, Nat.add_sub_cancel_left]
    exact Dvd.intro_left _ rfl

/-- Packing the magnitude of a finite word gives its low bits back. -/
theorem packBody_mag {w : Item} (h : isFinite w = true) :
    packBody (mag w) = expField w * 4503599627370496 + fracField w := by
  have he := (isFinite_iff w).1 h
  have hf := fracField_lt w
  have hlt := (representable_mag h).2
  by_cases h0 : expField w = 0
  · have hm : mag w = fracField w := by rw [mag, if_pos h0]
    rw [packBody, hm, if_pos hf, h0]
    omega
  · have hm : mag w = (4503599627370496 + fracField w) * 2 ^ (expField w - 1) := by rw [mag, if_neg h0]
    have hge : 4503599627370496 ≤ mag w := by
      rw [hm]
      exact Nat.le_trans (Nat.le_add_right _ _) (Nat.le_mul_of_pos_right _ (by positivity))
    rw [packBody, if_neg (by omega), if_neg (by omega)]
    rw [hm, log2_significand hf, Nat.add_sub_cancel_left, Nat.mul_div_cancel _ (by positivity)]
    have : expField w = (expField w - 1) + 1 := by omega
    rw [this, Nat.add_sub_cancel]
    ring

/-- A finite word is its sign and its magnitude. -/
theorem packMag_mag {w : Item} (h : isFinite w = true) : packMag (signBit w) (mag w) = w := by
  have hw := toNat_fields w
  have hlt := w.isLt
  apply BitVec.eq_of_toNat_eq
  rw [packMag, packBody_mag h, BitVec.toNat_ofNat]
  cases hs : signBit w <;> rw [hs] at hw <;> simp at hw ⊢ <;> omega

/-- The word packed from a representable magnitude has that magnitude. -/
theorem packMag_fields (neg : Bool) {m : Nat} (h : Representable m) :
    signBit (packMag neg m) = neg ∧ mag (packMag neg m) = m ∧ isFinite (packMag neg m) = true := by
  obtain ⟨hd, hlt⟩ := h
  by_cases hs : m < 4503599627370496
  · have hb : packBody m = m := by rw [packBody, if_pos hs]
    obtain ⟨f1, f2, f3⟩ := fields_ofNat neg (body := packBody m) (by omega)
    rw [hb, Nat.div_eq_of_lt hs] at f2
    rw [hb, Nat.mod_eq_of_lt hs] at f3
    rw [← packMag.eq_1] at f1
    refine ⟨f1, ?_, ?_⟩
    · rw [mag, packMag, hb, f2, if_pos rfl, f3]
    · rw [isFinite_iff, packMag, hb, f2]
      omega
  · have h0 : m ≠ 0 := by omega
    obtain ⟨hl1, hl2⟩ := (Nat.log2_eq_iff h0).1 (rfl : m.log2 = m.log2)
    have hL : 52 ≤ m.log2 := (Nat.le_log2 h0).2 (by norm_num; omega)
    have hU : m.log2 ≤ 2097 := by
      have := lt_infMag_log2 h0 hlt
      omega
    generalize hL' : m.log2 = L at *
    obtain ⟨e, rfl⟩ := Nat.exists_eq_add_of_le hL
    have hq : quantum m = 2 ^ e := by rw [quantum, hL', Nat.add_sub_cancel_left]
    rw [hq] at hd
    obtain ⟨c, hc⟩ := hd
    have hp : 0 < 2 ^ e := by positivity
    have c1 : 4503599627370496 ≤ c := by
      rw [hc, pow_add, Nat.mul_comm] at hl1
      have := Nat.le_of_mul_le_mul_left hl1 hp
      norm_num at this
      exact this
    have c2 : c < 9007199254740992 := by
      rw [show 52 + e + 1 = e + 53 by omega, pow_add, hc] at hl2
      have := Nat.lt_of_mul_lt_mul_left hl2
      norm_num at this
      exact this
    have hb : packBody m = e * 4503599627370496 + c := by
      rw [packBody, if_neg hs, if_neg (by omega), hL', Nat.add_sub_cancel_left, hc, Nat.mul_div_cancel_left _ hp]
    obtain ⟨f1, f2, f3⟩ := fields_ofNat neg (body := packBody m) (by omega)
    have g2 : packBody m / 4503599627370496 = e + 1 := by omega
    have g3 : packBody m % 4503599627370496 = c - 4503599627370496 := by omega
    rw [g2] at f2
    rw [g3] at f3
    rw [← packMag.eq_1] at f1 f2 f3
    refine ⟨f1, ?_, ?_⟩
    · rw [mag, f2, if_neg (by omega), f3, Nat.add_sub_cancel, hc, Nat.mul_comm]
      rw [show 4503599627370496 + (c - 4503599627370496) = c by omega]
    · rw [isFinite_iff, f2]
      omega

/-! ### Rounding -/

theorem halfEven_mul (m : Nat) {den : Nat} (h : 0 < den) : halfEven (m * den) den = m := by
  simp only [halfEven, Nat.mul_div_cancel _ h, Nat.mul_mod_left, Nat.mul_zero, h, if_true]

/-- Rounding to the nearest integer is off by at most a half. -/
theorem halfEven_near (num : Nat) {den : Nat} (h : 0 < den) :
    2 * num ≤ 2 * (halfEven num den * den) + den ∧ 2 * (halfEven num den * den) ≤ 2 * num + den := by
  have hdm := Nat.div_add_mod num den
  have hlt := Nat.mod_lt num h
  have hc : num / den * den = den * (num / den) := Nat.mul_comm _ _
  simp only [halfEven]
  split
  · omega
  · split
    · rw [Nat.add_mul]; omega
    · rcases Nat.mod_two_eq_zero_or_one (num / den) with h2 | h2 <;> rw [h2, Nat.add_mul] <;> omega

/-- A tie goes to the even neighbour. -/
theorem halfEven_tie {num den : Nat} (h : 2 * (num % den) = den) : halfEven num den % 2 = 0 := by
  simp only [halfEven, h, lt_irrefl, if_false]
  omega

/-- Rounding a quotient that is a representable magnitude gives that magnitude. -/
theorem roundMag_exact {m den : Nat} (hd : 0 < den) (h : quantum m ∣ m) : roundMag (m * den) den = m := by
  obtain ⟨c, hc⟩ := h
  simp only [roundMag, Nat.mul_div_cancel _ hd]
  have hq := quantum_pos m
  generalize quantum m = q at *
  subst hc
  rw [show q * c * den = c * (den * q) by ring, halfEven_mul c (by positivity)]
  ring

theorem roundMag_one_exact {m : Nat} (h : quantum m ∣ m) : roundMag m 1 = m := by
  have := roundMag_exact (m := m) (den := 1) one_pos h
  rwa [Nat.mul_one] at this

/-! ### Exact cases of the operations -/

theorem expField_eq_extract (w : Item) : expField w = (w.extractLsb' 52 11).toNat := by
  rw [BitVec.extractLsb'_toNat, Nat.shiftRight_eq_div_pow]
  rfl

theorem fracField_eq_extract (w : Item) : fracField w = (w.extractLsb' 0 52).toNat := by
  rw [BitVec.extractLsb'_toNat, Nat.shiftRight_eq_div_pow, pow_zero, Nat.div_one]
  rfl

@[simp] theorem expField_fneg (w : Item) : expField (fneg w) = expField w := by
  rw [expField_eq_extract, expField_eq_extract, fneg, BitVec.extractLsb'_xor]
  simp

@[simp] theorem fracField_fneg (w : Item) : fracField (fneg w) = fracField w := by
  rw [fracField_eq_extract, fracField_eq_extract, fneg, BitVec.extractLsb'_xor]
  simp

@[simp] theorem signBit_fneg (w : Item) : signBit (fneg w) = !signBit w := by
  have : (9223372036854775808#64).msb = true := by decide
  simp [signBit, fneg, BitVec.msb_xor, this]

@[simp] theorem mag_fneg (w : Item) : mag (fneg w) = mag w := by simp [mag]

@[simp] theorem isNaN_fneg (w : Item) : isNaN (fneg w) = isNaN w := by simp [isNaN]

@[simp] theorem isInf_fneg (w : Item) : isInf (fneg w) = isInf w := by simp [isInf]

@[simp] theorem isFinite_fneg (w : Item) : isFinite (fneg w) = isFinite w := by simp [isFinite]

@[simp] theorem val_fneg (w : Item) : val (fneg w) = -val w := by
  cases h : signBit w <;> simp [val, h]

@[simp] theorem isFinite_f64One : isFinite f64One = true := by decide

@[simp] theorem signBit_f64One : signBit f64One = false := by decide

@[simp] theorem mag_f64One : mag f64One = oneMag := by
  have h1 : expField f64One = 1023 := by decide
  have h2 : fracField f64One = 0 := by decide
  rw [mag, h1, h2, if_neg (by norm_num), oneMag_eq, Nat.add_zero, show (4503599627370496 : Nat) = 2 ^ 52 by norm_num, ← pow_add]

@[simp] theorem isFinite_zero : isFinite 0#64 = true := by decide

@[simp] theorem signBit_zero : signBit 0#64 = false := by decide

@[simp] theorem mag_zero : mag 0#64 = 0 := by decide

@[simp] theorem val_zero : val 0#64 = 0 := by simp [val]

/-- Two finite words of the same sign and magnitude are the same word. -/
theorem eq_of_mag {a b : Item} (ha : isFinite a = true) (hb : isFinite b = true) (hs : signBit a = signBit b)
    (hm : mag a = mag b) : a = b := by
  rw [← packMag_mag ha, ← packMag_mag hb, hs, hm]

/-- A finite word of magnitude 0 is a zero. -/
theorem eq_zero_of_mag {a : Item} (ha : isFinite a = true) (hs : signBit a = false) (hm : mag a = 0) : a = 0#64 :=
  eq_of_mag ha isFinite_zero (by rw [hs, signBit_zero]) (by rw [hm, mag_zero])

theorem natAbs_val (w : Item) : (val w).natAbs = mag w := by
  unfold val
  split <;> simp

theorem val_eq_zero_iff (w : Item) : val w = 0 ↔ mag w = 0 := by
  rw [← Int.natAbs_eq_zero, natAbs_val]

/-- A sum of finite words whose exact value is representable is exact (R9). -/
theorem fadd_exact (k : Nat) {a b : Item} (ha : isFinite a = true) (hb : isFinite b = true)
    (hr : Representable (val a + val b).natAbs) :
    isFinite (fadd k a b) = true ∧ val (fadd k a b) = val a + val b ∧
      (val a + val b ≠ 0 → signBit (fadd k a b) = decide (val a + val b < 0)) ∧
      (val a + val b = 0 → signBit (fadd k a b) = (signBit a && signBit b)) := by
  have e : fadd k a b = if val a + val b = 0 then (if signBit a && signBit b then 0x8000000000000000#64 else 0#64)
      else packMag (decide (val a + val b < 0)) (roundMag (val a + val b).natAbs 1) := by
    simp [fadd, isNaN_false_of_finite ha, isNaN_false_of_finite hb, isInf_false_of_finite ha, isInf_false_of_finite hb]
  rw [e, roundMag_one_exact hr.1]
  by_cases hz : val a + val b = 0
  · rw [if_pos hz, hz]
    cases h : (signBit a && signBit b)
    · simp
    · simp only [if_true]
      refine ⟨by decide, by decide, fun hn => absurd rfl hn, fun _ => by decide⟩
  · rw [if_neg hz]
    generalize val a + val b = z at hr hz ⊢
    obtain ⟨h1, h2, h3⟩ := packMag_fields (decide (z < 0)) hr
    refine ⟨h3, ?_, fun _ => h1, fun h => absurd h hz⟩
    rw [val, h1, h2]
    by_cases hn : z < 0
    · simp only [hn, decide_true, if_true]
      omega
    · simp only [hn, decide_false, Bool.false_eq_true, if_false]
      omega

/-- A product of finite words whose exact magnitude is representable is exact (R9). -/
theorem fmul_exact (k : Nat) {a b : Item} {m : Nat} (ha : isFinite a = true) (hb : isFinite b = true)
    (hm : mag a * mag b = m * oneMag) (hr : Representable m) :
    isFinite (fmul k a b) = true ∧ signBit (fmul k a b) = (signBit a != signBit b) ∧ mag (fmul k a b) = m := by
  have e : fmul k a b = packMag (signBit a != signBit b) (roundMag (mag a * mag b) oneMag) := by
    simp [fmul, isNaN_false_of_finite ha, isNaN_false_of_finite hb, isInf_false_of_finite ha, isInf_false_of_finite hb]
  rw [e, hm, roundMag_exact oneMag_pos hr.1]
  obtain ⟨h1, h2, h3⟩ := packMag_fields (signBit a != signBit b) hr
  exact ⟨h3, h1, h2⟩

/-- Multiplying by 1.0 changes nothing. -/
theorem fmul_one (k : Nat) {b : Item} (hb : isFinite b = true) : fmul k f64One b = b := by
  obtain ⟨h1, h2, h3⟩ := fmul_exact k isFinite_f64One hb (m := mag b) (by rw [mag_f64One, Nat.mul_comm]) (representable_mag hb)
  exact eq_of_mag h1 hb (by rw [h2, signBit_f64One]; cases signBit b <;> rfl) h3

theorem representable_zero : Representable 0 := ⟨Dvd.intro 0 rfl, by rw [infMag_eq]; positivity⟩

/-- Multiplying a finite number by a zero gives a zero. -/
theorem fmul_zero_left (k : Nat) {z c : Item} (hz : isFinite z = true) (h0 : mag z = 0) (hc : isFinite c = true) :
    isFinite (fmul k z c) = true ∧ mag (fmul k z c) = 0 := by
  obtain ⟨h1, -, h3⟩ := fmul_exact k hz hc (m := 0) (by rw [h0, Nat.zero_mul, Nat.zero_mul]) representable_zero
  exact ⟨h1, h3⟩

/-- Adding a zero leaves the number. -/
theorem fadd_zero_right (k : Nat) {b z : Item} (hb : isFinite b = true) (hz : isFinite z = true) (h0 : mag z = 0) :
    isFinite (fadd k b z) = true ∧ val (fadd k b z) = val b := by
  have hv : val z = 0 := (val_eq_zero_iff z).2 h0
  obtain ⟨h1, h2, -, -⟩ := fadd_exact k hb hz (by rw [hv, Int.add_zero, natAbs_val]; exact representable_mag hb)
  exact ⟨h1, by rw [h2, hv, Int.add_zero]⟩

/-- The natural numbers up to `2^53` are binary64 numbers (R9). -/
theorem representable_nat {n : Nat} (h : n ≤ 9007199254740992) : Representable (n * oneMag) := by
  have hlt : n * oneMag < infMag := by
    have h1 : 2 ^ 54 * oneMag ≤ infMag := by
      rw [oneMag_eq, ← pow_add]
      exact pow_le_infMag (by norm_num)
    have h2 : n * oneMag < 2 ^ 54 * oneMag := Nat.mul_lt_mul_of_pos_right (by norm_num; omega) oneMag_pos
    exact Nat.lt_of_lt_of_le h2 h1
  refine ⟨?_, hlt⟩
  by_cases h0 : n = 0
  · subst h0; rw [Nat.zero_mul]; exact dvd_zero _
  · by_cases he : n = 9007199254740992
    · have e : n * oneMag = (4503599627370496 + 0) * 2 ^ 1075 := by
        rw [he, show (1075 : Nat) = 1074 + 1 by norm_num, pow_succ, ← oneMag_eq]
        omega
      rw [e, quantum, log2_significand (by norm_num), Nat.add_sub_cancel_left]
      exact Dvd.intro_left _ rfl
    · have hl : (n * oneMag).log2 = n.log2 + 1074 := by
        rw [oneMag_eq]
        exact log2_mul_pow h0 1074
      have hn : n.log2 < 53 := (Nat.log2_lt h0).2 (by norm_num; omega)
      rw [quantum, hl, oneMag_eq]
      exact Dvd.dvd.mul_left (pow_dvd_pow 2 (by omega)) _

/-- `f64(n)` is exact up to `2^53` (R9). -/
theorem f64_exact {n : Nat} (h : n ≤ 9007199254740992) :
    isFinite (f64 n) = true ∧ signBit (f64 n) = false ∧ mag (f64 n) = n * oneMag := by
  have hr := representable_nat h
  rw [f64, ofRatio, roundMag_one_exact hr.1]
  obtain ⟨h1, h2, h3⟩ := packMag_fields false hr
  exact ⟨h3, h1, h2⟩

theorem val_f64 {n : Nat} (h : n ≤ 9007199254740992) : val (f64 n) = ((n * oneMag : Nat) : Int) := by
  obtain ⟨-, h2, h3⟩ := f64_exact h
  rw [val, h2, h3]
  simp

/-! ### The clamp and the split of a delay request (41_delayline.md R130) -/

/-- What the clamp answers for a request that is not a NaN: a finite number that is not negative and not above the maximum. -/
theorem clampDelay_range {maxd : Nat} {s : Item} (hm : maxd ≤ maxCap) (hs : isNaN s = false) :
    isFinite (clampDelay maxd s) = true ∧ signBit (clampDelay maxd s) = false ∧ mag (clampDelay maxd s) ≤ maxd * oneMag := by
  have hm' : maxd ≤ 9007199254740992 := by unfold maxCap at hm; omega
  obtain ⟨f1, f2, f3⟩ := f64_exact hm'
  have hn : isNaN (f64 maxd) = false := isNaN_false_of_finite f1
  unfold clampDelay
  split
  · simp
  · next h1 =>
    split
    · exact ⟨f1, f2, Nat.le_of_eq f3⟩
    · next h2 =>
      have g1 : 0 < val s := by
        simp only [fle, hs, isNaN_false_of_finite isFinite_zero, val_zero] at h1
        simpa using h1
      have g2 : val s < ((maxd * oneMag : Nat) : Int) := by
        simp only [fle, hs, hn, val_f64 hm'] at h2
        simpa using h2
      have hsg : signBit s = false := by
        by_contra hc
        simp only [Bool.not_eq_false] at hc
        rw [val, hc, if_pos rfl] at g1
        omega
      rw [val, hsg] at g2
      simp only [Bool.false_eq_true, if_false] at g2
      have g3 : mag s < maxd * oneMag := by exact_mod_cast g2
      refine ⟨?_, hsg, Nat.le_of_lt g3⟩
      rw [isFinite_iff]
      by_contra hc
      have he : expField s = 2047 := by have := expField_lt s; omega
      have hbig : infMag ≤ mag s := by
        rw [mag, he, if_neg (by norm_num), infMag_eq, show (2098 : Nat) = 52 + (2047 - 1) by norm_num, pow_add]
        exact Nat.mul_le_mul_right _ (by norm_num)
      have := (representable_nat hm').2
      omega

/-- The fraction of a representable magnitude below `2^53` units of 1.0 is representable. -/
theorem representable_mod {m n : Nat} (h : Representable m) (hn : n ≤ 2147483647) (hm : m ≤ n * oneMag) :
    Representable (m % oneMag) := by
  have hlt : m % oneMag < infMag := Nat.lt_of_le_of_lt (Nat.mod_le _ _) h.2
  refine ⟨?_, hlt⟩
  by_cases h0 : m % oneMag = 0
  · rw [h0]; exact dvd_zero _
  have hm0 : m ≠ 0 := by intro he; rw [he, Nat.zero_mod] at h0; exact h0 rfl
  have hl : m.log2 ≤ 31 + 1074 := by
    have h1 : m < 2 ^ 32 * oneMag := Nat.lt_of_le_of_lt hm (Nat.mul_lt_mul_of_pos_right (by norm_num; omega) oneMag_pos)
    rw [oneMag_eq, ← pow_add] at h1
    have := (Nat.log2_lt hm0).2 h1
    omega
  have hq : quantum m ∣ oneMag := by
    rw [quantum, oneMag_eq]
    exact pow_dvd_pow 2 (by omega)
  have hd : quantum m ∣ m % oneMag := (Nat.dvd_mod_iff hq).2 h.1
  have hle : (m % oneMag).log2 ≤ m.log2 := by
    rw [Nat.log2_eq_log_two, Nat.log2_eq_log_two]
    exact Nat.log_mono_right (Nat.mod_le _ _)
  refine Dvd.dvd.trans ?_ hd
  rw [quantum, quantum]
  exact pow_dvd_pow 2 (by omega)

/-- The split (R130): `DINT` is the floor and `DFRAC` exactly the rest, in `[0, 1)` and never `-0`; at the maximum there is no rest. -/
theorem clampSplit_exact (k : Nat) {maxd : Nat} {s : Item} (hm : maxd ≤ maxCap) (hs : isNaN s = false) :
    (clampSplit k maxd s).1 = mag (clampDelay maxd s) / oneMag ∧
    mag (clampSplit k maxd s).2 = mag (clampDelay maxd s) % oneMag ∧
    signBit (clampSplit k maxd s).2 = false ∧ isFinite (clampSplit k maxd s).2 = true ∧
    (clampSplit k maxd s).1 ≤ maxd ∧ ((clampSplit k maxd s).1 = maxd → (clampSplit k maxd s).2 = 0#64) := by
  obtain ⟨c1, c2, c3⟩ := clampDelay_range hm hs
  unfold maxCap at hm
  simp only [clampSplit, floorNat]
  generalize clampDelay maxd s = c at *
  have hd : mag c / oneMag ≤ maxd := Nat.div_le_of_le_mul (by rw [Nat.mul_comm]; exact c3)
  obtain ⟨f1, f2, f3⟩ := f64_exact (n := mag c / oneMag) (by omega)
  have hdm := Nat.div_add_mod (mag c) oneMag
  have hvc : val c = (mag c : Int) := by rw [val, c2]; simp
  have hvf : val (fneg (f64 (mag c / oneMag))) = -((mag c / oneMag * oneMag : Nat) : Int) := by rw [val_fneg, val, f2, f3]; simp
  have hz : val c + val (fneg (f64 (mag c / oneMag))) = ((mag c % oneMag : Nat) : Int) := by
    rw [hvc, hvf]
    have : mag c / oneMag * oneMag = oneMag * (mag c / oneMag) := Nat.mul_comm _ _
    omega
  have hrep : Representable (mag c % oneMag) := representable_mod (representable_mag c1) hm c3
  obtain ⟨a1, a2, a3, a4⟩ := fadd_exact k c1 (b := fneg (f64 (mag c / oneMag))) (by rw [isFinite_fneg]; exact f1)
    (by rw [hz, Int.natAbs_natCast]; exact hrep)
  rw [hz] at a2 a3 a4
  have hsig : signBit (fsub k c (f64 (mag c / oneMag))) = false := by
    by_cases h0 : ((mag c % oneMag : Nat) : Int) = 0
    · rw [fsub, a4 h0, c2, Bool.false_and]
    · rw [fsub, a3 h0]
      exact decide_eq_false (not_lt.2 (Int.natCast_nonneg _))
  have hmag : mag (fsub k c (f64 (mag c / oneMag))) = mag c % oneMag := by
    rw [fsub, ← natAbs_val, a2, Int.natAbs_natCast]
  refine ⟨trivial, hmag, hsig, a1, hd, ?_⟩
  intro he
  refine eq_zero_of_mag a1 hsig ?_
  rw [hmag]
  have : mag c = maxd * oneMag := by
    have h1 : maxd * oneMag ≤ mag c := by
      rw [← he]
      exact Nat.div_mul_le_self _ _
    omega
  rw [this, Nat.mul_mod_left]

end Sys2Proof.Machine
end

