-- ==== Sys2Proof/Laws/State.lean ====
section
/-! SUPPORT. What each named update of the state writes and leaves alone: one lemma for each field of each update. -/

namespace Sys2Proof.Machine

/-! ### `State.setRs` -/

@[simp] theorem State.setRs_cfg (s : State) (u : RsUnit) : (s.setRs u).cfg = s.cfg := rfl
@[simp] theorem State.setRs_rs (s : State) (u : RsUnit) : (s.setRs u).rs = u := rfl
@[simp] theorem State.setRs_dl (s : State) (u : RsUnit) : (s.setRs u).dl = s.dl := rfl
@[simp] theorem State.setRs_ap (s : State) (u : RsUnit) : (s.setRs u).ap = s.ap := rfl
@[simp] theorem State.setRs_fault (s : State) (u : RsUnit) : (s.setRs u).fault = s.fault := rfl
@[simp] theorem State.setRs_fcode (s : State) (u : RsUnit) : (s.setRs u).fcode = s.fcode := rfl
@[simp] theorem State.setRs_nanDraws (s : State) (u : RsUnit) : (s.setRs u).nanDraws = s.nanDraws := rfl
@[simp] theorem State.setRs_port (s : State) (u : RsUnit) : (s.setRs u).port = s.port := rfl

/-! ### `State.setDl` -/

@[simp] theorem State.setDl_cfg (s : State) (u : DlUnit) : (s.setDl u).cfg = s.cfg := rfl
@[simp] theorem State.setDl_rs (s : State) (u : DlUnit) : (s.setDl u).rs = s.rs := rfl
@[simp] theorem State.setDl_dl (s : State) (u : DlUnit) : (s.setDl u).dl = u := rfl
@[simp] theorem State.setDl_ap (s : State) (u : DlUnit) : (s.setDl u).ap = s.ap := rfl
@[simp] theorem State.setDl_fault (s : State) (u : DlUnit) : (s.setDl u).fault = s.fault := rfl
@[simp] theorem State.setDl_fcode (s : State) (u : DlUnit) : (s.setDl u).fcode = s.fcode := rfl
@[simp] theorem State.setDl_nanDraws (s : State) (u : DlUnit) : (s.setDl u).nanDraws = s.nanDraws := rfl
@[simp] theorem State.setDl_port (s : State) (u : DlUnit) : (s.setDl u).port = s.port := rfl

/-! ### `State.setAp` -/

@[simp] theorem State.setAp_cfg (s : State) (u : ApUnit) : (s.setAp u).cfg = s.cfg := rfl
@[simp] theorem State.setAp_rs (s : State) (u : ApUnit) : (s.setAp u).rs = s.rs := rfl
@[simp] theorem State.setAp_dl (s : State) (u : ApUnit) : (s.setAp u).dl = s.dl := rfl
@[simp] theorem State.setAp_ap (s : State) (u : ApUnit) : (s.setAp u).ap = u := rfl
@[simp] theorem State.setAp_fault (s : State) (u : ApUnit) : (s.setAp u).fault = s.fault := rfl
@[simp] theorem State.setAp_fcode (s : State) (u : ApUnit) : (s.setAp u).fcode = s.fcode := rfl
@[simp] theorem State.setAp_nanDraws (s : State) (u : ApUnit) : (s.setAp u).nanDraws = s.nanDraws := rfl
@[simp] theorem State.setAp_port (s : State) (u : ApUnit) : (s.setAp u).port = s.port := rfl

/-! ### `State.setFault` -/

@[simp] theorem State.setFault_cfg (s : State) (f : Bool) (c : BitVec 8) : (s.setFault f c).cfg = s.cfg := rfl
@[simp] theorem State.setFault_rs (s : State) (f : Bool) (c : BitVec 8) : (s.setFault f c).rs = s.rs := rfl
@[simp] theorem State.setFault_dl (s : State) (f : Bool) (c : BitVec 8) : (s.setFault f c).dl = s.dl := rfl
@[simp] theorem State.setFault_ap (s : State) (f : Bool) (c : BitVec 8) : (s.setFault f c).ap = s.ap := rfl
@[simp] theorem State.setFault_fault (s : State) (f : Bool) (c : BitVec 8) : (s.setFault f c).fault = f := rfl
@[simp] theorem State.setFault_fcode (s : State) (f : Bool) (c : BitVec 8) : (s.setFault f c).fcode = c := rfl
@[simp] theorem State.setFault_nanDraws (s : State) (f : Bool) (c : BitVec 8) : (s.setFault f c).nanDraws = s.nanDraws := rfl
@[simp] theorem State.setFault_port (s : State) (f : Bool) (c : BitVec 8) : (s.setFault f c).port = s.port := rfl

/-! ### `State.setDraws` -/

@[simp] theorem State.setDraws_cfg (s : State) (k : Nat) : (s.setDraws k).cfg = s.cfg := rfl
@[simp] theorem State.setDraws_rs (s : State) (k : Nat) : (s.setDraws k).rs = s.rs := rfl
@[simp] theorem State.setDraws_dl (s : State) (k : Nat) : (s.setDraws k).dl = s.dl := rfl
@[simp] theorem State.setDraws_ap (s : State) (k : Nat) : (s.setDraws k).ap = s.ap := rfl
@[simp] theorem State.setDraws_fault (s : State) (k : Nat) : (s.setDraws k).fault = s.fault := rfl
@[simp] theorem State.setDraws_fcode (s : State) (k : Nat) : (s.setDraws k).fcode = s.fcode := rfl
@[simp] theorem State.setDraws_nanDraws (s : State) (k : Nat) : (s.setDraws k).nanDraws = k := rfl
@[simp] theorem State.setDraws_port (s : State) (k : Nat) : (s.setDraws k).port = s.port := rfl

/-! ### `State.setInbox` -/

@[simp] theorem State.setInbox_cfg (s : State) (l : List HostEvent) : (s.setInbox l).cfg = s.cfg := rfl
@[simp] theorem State.setInbox_rs (s : State) (l : List HostEvent) : (s.setInbox l).rs = s.rs := rfl
@[simp] theorem State.setInbox_dl (s : State) (l : List HostEvent) : (s.setInbox l).dl = s.dl := rfl
@[simp] theorem State.setInbox_ap (s : State) (l : List HostEvent) : (s.setInbox l).ap = s.ap := rfl
@[simp] theorem State.setInbox_fault (s : State) (l : List HostEvent) : (s.setInbox l).fault = s.fault := rfl
@[simp] theorem State.setInbox_fcode (s : State) (l : List HostEvent) : (s.setInbox l).fcode = s.fcode := rfl
@[simp] theorem State.setInbox_nanDraws (s : State) (l : List HostEvent) : (s.setInbox l).nanDraws = s.nanDraws := rfl
@[simp] theorem State.setInbox_port (s : State) (l : List HostEvent) : (s.setInbox l).port = { s.port with inbox := l } := rfl

/-! ### `State.respond` -/

@[simp] theorem State.respond_cfg (s : State) (r : Response) : (s.respond r).cfg = s.cfg := rfl
@[simp] theorem State.respond_rs (s : State) (r : Response) : (s.respond r).rs = s.rs := rfl
@[simp] theorem State.respond_dl (s : State) (r : Response) : (s.respond r).dl = s.dl := rfl
@[simp] theorem State.respond_ap (s : State) (r : Response) : (s.respond r).ap = s.ap := rfl
@[simp] theorem State.respond_fault (s : State) (r : Response) : (s.respond r).fault = s.fault := rfl
@[simp] theorem State.respond_fcode (s : State) (r : Response) : (s.respond r).fcode = s.fcode := rfl
@[simp] theorem State.respond_nanDraws (s : State) (r : Response) : (s.respond r).nanDraws = s.nanDraws := rfl
@[simp] theorem State.respond_port (s : State) (r : Response) : (s.respond r).port = { s.port with outbox := r :: s.port.outbox } := rfl

/-! ### Fault entry and the halted answer (R173, R174) -/

@[simp] theorem raiseFault_cfg (c : FaultCode) (s : State) : (raiseFault c s).cfg = s.cfg := rfl
@[simp] theorem raiseFault_rs (c : FaultCode) (s : State) : (raiseFault c s).rs = s.rs := rfl
@[simp] theorem raiseFault_dl (c : FaultCode) (s : State) : (raiseFault c s).dl = s.dl := rfl
@[simp] theorem raiseFault_ap (c : FaultCode) (s : State) : (raiseFault c s).ap = s.ap := rfl
@[simp] theorem raiseFault_fault (c : FaultCode) (s : State) : (raiseFault c s).fault = true := rfl
@[simp] theorem raiseFault_fcode (c : FaultCode) (s : State) : (raiseFault c s).fcode = c.byte := rfl
@[simp] theorem raiseFault_nanDraws (c : FaultCode) (s : State) : (raiseFault c s).nanDraws = s.nanDraws := rfl
@[simp] theorem raiseFault_port (c : FaultCode) (s : State) : (raiseFault c s).port = { s.port with outbox := faultResponse c :: s.port.outbox } := rfl
@[simp] theorem answerHalted_cfg (s : State) : (answerHalted s).cfg = s.cfg := rfl
@[simp] theorem answerHalted_rs (s : State) : (answerHalted s).rs = s.rs := rfl
@[simp] theorem answerHalted_dl (s : State) : (answerHalted s).dl = s.dl := rfl
@[simp] theorem answerHalted_ap (s : State) : (answerHalted s).ap = s.ap := rfl
@[simp] theorem answerHalted_fault (s : State) : (answerHalted s).fault = s.fault := rfl
@[simp] theorem answerHalted_fcode (s : State) : (answerHalted s).fcode = s.fcode := rfl
@[simp] theorem answerHalted_nanDraws (s : State) : (answerHalted s).nanDraws = s.nanDraws := rfl
@[simp] theorem answerHalted_port (s : State) : (answerHalted s).port = { s.port with outbox := haltedResponse s.fcode :: s.port.outbox } := rfl

/-! ### Owners -/

@[simp] theorem State.setOwner_rs_rs (s : State) (o : Owner) : (s.setOwner .rs o).rs = { s.rs with owner := o } := rfl
@[simp] theorem State.setOwner_dl_rs (s : State) (o : Owner) : (s.setOwner .dl o).rs = s.rs := rfl
@[simp] theorem State.setOwner_ap_rs (s : State) (o : Owner) : (s.setOwner .ap o).rs = s.rs := rfl
@[simp] theorem State.setOwner_rs_dl (s : State) (o : Owner) : (s.setOwner .rs o).dl = s.dl := rfl
@[simp] theorem State.setOwner_dl_dl (s : State) (o : Owner) : (s.setOwner .dl o).dl = { s.dl with owner := o } := rfl
@[simp] theorem State.setOwner_ap_dl (s : State) (o : Owner) : (s.setOwner .ap o).dl = s.dl := rfl
@[simp] theorem State.setOwner_rs_ap (s : State) (o : Owner) : (s.setOwner .rs o).ap = s.ap := rfl
@[simp] theorem State.setOwner_dl_ap (s : State) (o : Owner) : (s.setOwner .dl o).ap = s.ap := rfl
@[simp] theorem State.setOwner_ap_ap (s : State) (o : Owner) : (s.setOwner .ap o).ap = { s.ap with owner := o } := rfl

@[simp] theorem State.setOwner_cfg (s : State) (u : UnitId) (o : Owner) : (s.setOwner u o).cfg = s.cfg := by cases u <;> rfl
@[simp] theorem State.setOwner_fault (s : State) (u : UnitId) (o : Owner) : (s.setOwner u o).fault = s.fault := by cases u <;> rfl
@[simp] theorem State.setOwner_fcode (s : State) (u : UnitId) (o : Owner) : (s.setOwner u o).fcode = s.fcode := by cases u <;> rfl
@[simp] theorem State.setOwner_nanDraws (s : State) (u : UnitId) (o : Owner) : (s.setOwner u o).nanDraws = s.nanDraws := by cases u <;> rfl
@[simp] theorem State.setOwner_port (s : State) (u : UnitId) (o : Owner) : (s.setOwner u o).port = s.port := by cases u <;> rfl

@[simp] theorem State.bindOwner_cfg (s : State) (u : UnitId) (c : Ctx) : (s.bindOwner u c).cfg = s.cfg := by
  unfold State.bindOwner; split <;> simp
@[simp] theorem State.bindOwner_fault (s : State) (u : UnitId) (c : Ctx) : (s.bindOwner u c).fault = s.fault := by
  unfold State.bindOwner; split <;> simp
@[simp] theorem State.bindOwner_fcode (s : State) (u : UnitId) (c : Ctx) : (s.bindOwner u c).fcode = s.fcode := by
  unfold State.bindOwner; split <;> simp
@[simp] theorem State.bindOwner_nanDraws (s : State) (u : UnitId) (c : Ctx) : (s.bindOwner u c).nanDraws = s.nanDraws := by
  unfold State.bindOwner; split <;> simp
@[simp] theorem State.bindOwner_port (s : State) (u : UnitId) (c : Ctx) : (s.bindOwner u c).port = s.port := by
  unfold State.bindOwner; split <;> simp

@[simp] theorem State.bindOwner_rs_store (s : State) (u : UnitId) (c : Ctx) : (s.bindOwner u c).rs.store = s.rs.store := by
  unfold State.bindOwner; split <;> cases u <;> rfl
@[simp] theorem State.bindOwner_dl_store (s : State) (u : UnitId) (c : Ctx) : (s.bindOwner u c).dl.store = s.dl.store := by
  unfold State.bindOwner; split <;> cases u <;> rfl
@[simp] theorem State.bindOwner_dl_dint (s : State) (u : UnitId) (c : Ctx) : (s.bindOwner u c).dl.dint = s.dl.dint := by
  unfold State.bindOwner; split <;> cases u <;> rfl
@[simp] theorem State.bindOwner_dl_dfrac (s : State) (u : UnitId) (c : Ctx) : (s.bindOwner u c).dl.dfrac = s.dl.dfrac := by
  unfold State.bindOwner; split <;> cases u <;> rfl
@[simp] theorem State.bindOwner_ap_ff (s : State) (u : UnitId) (c : Ctx) : (s.bindOwner u c).ap.ff = s.ap.ff := by
  unfold State.bindOwner; split <;> cases u <;> rfl
@[simp] theorem State.bindOwner_ap_fb (s : State) (u : UnitId) (c : Ctx) : (s.bindOwner u c).ap.fb = s.ap.fb := by
  unfold State.bindOwner; split <;> cases u <;> rfl
@[simp] theorem State.bindOwner_ap_gain (s : State) (u : UnitId) (c : Ctx) : (s.bindOwner u c).ap.gain = s.ap.gain := by
  unfold State.bindOwner; split <;> cases u <;> rfl

/-- Where the owner check lets a context in, binding leaves the unit owned by exactly that context (R176, R177). -/
theorem State.bindOwner_owner (s : State) (u : UnitId) (c : Ctx) (h : s.foreign u c = false) :
    (s.bindOwner u c).owner u = { bound := true, ctx := c } := by
  unfold State.bindOwner
  split
  · next hb =>
    simp only [State.foreign, hb, Bool.true_and, bne_eq_false_iff_eq] at h
    cases ho : s.owner u with
    | mk b x => rw [ho] at hb h; simp_all
  · cases u <;> rfl

/-- Binding one unit leaves the owners of the others alone (R176). -/
theorem State.bindOwner_owner_other (s : State) (u v : UnitId) (c : Ctx) (h : v ≠ u) :
    (s.bindOwner u c).owner v = s.owner v := by
  unfold State.bindOwner
  split
  · rfl
  · cases u <;> cases v <;> first | rfl | exact absurd rfl h

/-- An accepted RS command leaves the RS unit with its store and owned by the command's context. -/
theorem State.bindOwner_rs (s : State) (c : Ctx) (h : s.foreign .rs c = false) :
    (s.bindOwner .rs c).rs = { s.rs with owner := { bound := true, ctx := c } } := by
  have h1 := s.bindOwner_owner .rs c h
  have h2 := s.bindOwner_rs_store .rs c
  cases hr : (s.bindOwner .rs c).rs
  simp_all [State.owner]

/-- The same for a DL command. -/
theorem State.bindOwner_dl (s : State) (c : Ctx) (h : s.foreign .dl c = false) :
    (s.bindOwner .dl c).dl = { s.dl with owner := { bound := true, ctx := c } } := by
  have h1 := s.bindOwner_owner .dl c h
  have h2 := s.bindOwner_dl_store .dl c
  have h3 := s.bindOwner_dl_dint .dl c
  have h4 := s.bindOwner_dl_dfrac .dl c
  cases hr : (s.bindOwner .dl c).dl
  simp_all [State.owner]

/-- The same for an AP command. -/
theorem State.bindOwner_ap (s : State) (c : Ctx) (h : s.foreign .ap c = false) :
    (s.bindOwner .ap c).ap = { s.ap with owner := { bound := true, ctx := c } } := by
  have h1 := s.bindOwner_owner .ap c h
  have h2 := s.bindOwner_ap_ff .ap c
  have h3 := s.bindOwner_ap_fb .ap c
  have h4 := s.bindOwner_ap_gain .ap c
  cases hr : (s.bindOwner .ap c).ap
  simp_all [State.owner]

/-- Binding one unit leaves the other units alone. -/
theorem State.bindOwner_other_units (s : State) (c : Ctx) :
    ((s.bindOwner .rs c).dl = s.dl ∧ (s.bindOwner .rs c).ap = s.ap) ∧
    ((s.bindOwner .dl c).rs = s.rs ∧ (s.bindOwner .dl c).ap = s.ap) ∧
    ((s.bindOwner .ap c).rs = s.rs ∧ (s.bindOwner .ap c).dl = s.dl) := by
  refine ⟨⟨?_, ?_⟩, ⟨?_, ?_⟩, ?_, ?_⟩ <;> (unfold State.bindOwner; split <;> rfl)

end Sys2Proof.Machine
end

