-- ==== Sys2Proof/Laws/Envelope.lean ====
section
/-! SUPPORT. What the command envelope and the acceptance of an event can do, said once (60_exceptions.md R170, R173 to R177). -/

namespace Sys2Proof.Machine

section Envelope

variable {u : UnitId} {ctx : Ctx} {check : Option FaultCode} {run : State → Except Fault (State × List Item)} {s t : State}

/-- Step 1 (R174). -/
theorem envelope_halted (h : s.fault = true) : envelope u ctx check run s = .next (answerHalted s) := by
  simp [envelope, h]

/-- Step 3 (R176). -/
theorem envelope_foreign (h : s.fault = false) (ho : s.foreign u ctx = true) :
    envelope u ctx check run s = .next (raiseFault .owner s) := by
  simp [envelope, h, ho]

/-- Step 4 (R172). -/
theorem envelope_check {c : FaultCode} (h : s.Accepts u ctx) (hc : check = some c) :
    envelope u ctx check run s = .next (raiseFault c s) := by
  simp [envelope, h.1, h.2, hc]

/-- Step 5 (R177). -/
theorem envelope_run {q : List Item} (h : s.Accepts u ctx) (hc : check = none) (hr : run (s.bindOwner u ctx) = .ok (t, q)) :
    envelope u ctx check run s = .next (t.respond (okResponse q)) := by
  simp [envelope, h.1, h.2, hc, hr]

/-- Everything the envelope can do when it answers a next state. -/
theorem envelope_next_cases (h : envelope u ctx check run s = .next t) :
    (s.fault = true ∧ t = answerHalted s) ∨
    (s.fault = false ∧ s.foreign u ctx = true ∧ t = raiseFault .owner s) ∨
    (s.Accepts u ctx ∧ ∃ c, check = some c ∧ t = raiseFault c s) ∨
    (s.Accepts u ctx ∧ check = none ∧ ∃ t' q, run (s.bindOwner u ctx) = .ok (t', q) ∧ t = t'.respond (okResponse q)) := by
  cases hf : s.fault with
  | true =>
    rw [envelope_halted hf] at h
    exact .inl ⟨rfl, by injection h with h; exact h.symm⟩
  | false =>
    cases ho : s.foreign u ctx with
    | true =>
      rw [envelope_foreign hf ho] at h
      exact .inr (.inl ⟨rfl, rfl, by injection h with h; exact h.symm⟩)
    | false =>
      cases hc : check with
      | some c =>
        rw [envelope_check ⟨hf, ho⟩ hc] at h
        exact .inr (.inr (.inl ⟨⟨hf, ho⟩, c, rfl, by injection h with h; exact h.symm⟩))
      | none =>
        simp only [envelope, hf, ho, hc, Bool.false_eq_true, if_false] at h
        cases hr : run (s.bindOwner u ctx) with
        | error e => simp [hr] at h
        | ok p =>
          obtain ⟨t', q⟩ := p
          simp only [hr] at h
          exact .inr (.inr (.inr ⟨⟨hf, ho⟩, rfl, t', q, rfl, by injection h with h; exact h.symm⟩))

/-- The envelope never refuses. -/
theorem envelope_never_refuses {r : Refusal} : envelope u ctx check run s ≠ .refused r := by
  intro h
  simp only [envelope] at h
  split at h
  · cases h
  · split at h
    · cases h
    · split at h
      · cases h
      · split at h <;> cases h

end Envelope

/-! ### One step (R170) -/

section Step

variable {s : State}

/-- Nothing pending: CORE holds its state (R184). -/
theorem step_idle (hv : cfgValid s.cfg = true) (h : s.port.inbox = []) : step s = .next s := by
  simp [step, fetch, hv, h]

/-- RESET (70_reset_and_hazards.md R200). -/
theorem step_reset {rest : List HostEvent} (hv : cfgValid s.cfg = true) (h : s.port.inbox = .reset :: rest) :
    step s = .next (resetEvent (s.setInbox rest)) := by
  simp [step, fetch, hv, h]

/-- A halted CORE answers a command undecoded (R174). -/
theorem step_halted {hw : Word} {p : List Word} {rest : List HostEvent} (hv : cfgValid s.cfg = true)
    (h : s.port.inbox = .command hw p :: rest) (hf : s.fault = true) : step s = .next (answerHalted (s.setInbox rest)) := by
  simp [step, fetch, hv, h, hf]

/-- An `ILLEGAL` command raises `F_ILLEGAL` (R170 step 2). -/
theorem step_illegal {hw : Word} {p : List Word} {rest : List HostEvent} {e : Illegal} (hv : cfgValid s.cfg = true)
    (h : s.port.inbox = .command hw p :: rest) (hf : s.fault = false) (hd : decode hw p = .error e) :
    step s = .next (raiseFault .illegal (s.setInbox rest)) := by
  simp [step, fetch, hv, h, hf, hd]

/-- A legal command of a running CORE is executed. -/
theorem step_command {hw : Word} {p : List Word} {rest : List HostEvent} {i : Instr} (hv : cfgValid s.cfg = true)
    (h : s.port.inbox = .command hw p :: rest) (hf : s.fault = false) (hd : decode hw p = .ok i) :
    step s = exec i (s.setInbox rest) := by
  simp [step, fetch, hv, h, hf, hd]

/-- An invalid configuration is refused (00_scope.md R5). -/
theorem step_invalid (hv : cfgValid s.cfg = false) : step s = .refused .invalidConfiguration := by
  simp [step, fetch, hv]

end Step

end Sys2Proof.Machine
end

