-- ==== Sys2Proof/Laws/Memory.lean ====
section
/-! SUPPORT. Item memory: reading after writing, and that every operation keeps the canonical form (00_scope.md R8, 20_memory.md
R59). -/

namespace Sys2Proof.Machine

/-- Every listed index lies above `p`. -/
def Memory.Above (p : Nat) (m : Memory) : Prop := ∀ c ∈ m, p < c.1

theorem Memory.Above.trans {p q : Nat} {m : Memory} (h : Memory.Above q m) (hpq : p < q) : Memory.Above p m :=
  fun c hc => Nat.lt_trans hpq (h c hc)

/-- The canonical form, one cell at a time. -/
theorem Memory.wf_cons (p : Nat) (v : Item) (m : Memory) :
    Memory.wf ((p, v) :: m) = true ↔ v ≠ 0#64 ∧ Memory.Above p m ∧ Memory.wf m = true := by
  induction m generalizing p v with
  | nil => simp [Memory.wf, Memory.Above]
  | cons c m ih =>
    obtain ⟨q, u⟩ := c
    simp only [Memory.wf, Bool.and_eq_true, bne_iff_ne, ne_eq, decide_eq_true_eq]
    constructor
    · rintro ⟨⟨hv, hpq⟩, hw⟩
      refine ⟨hv, ?_, hw⟩
      intro x hx
      rcases List.mem_cons.1 hx with rfl | hx
      · exact hpq
      · exact Nat.lt_trans hpq (((ih q u).1 hw).2.1 x hx)
    · rintro ⟨hv, ha, hw⟩
      exact ⟨⟨hv, ha (q, u) (List.mem_cons_self ..)⟩, hw⟩

@[simp] theorem Memory.wf_nil : Memory.wf [] = true := rfl

@[simp] theorem Memory.read_nil (p : Nat) : Memory.read [] p = 0#64 := rfl

theorem Memory.read_cons (q : Nat) (u : Item) (m : Memory) (p : Nat) :
    Memory.read ((q, u) :: m) p = if q = p then u else m.read p := rfl

/-- An index below every listed one reads as zero. -/
theorem Memory.read_of_above {p : Nat} {m : Memory} (h : Memory.Above p m) : m.read p = 0#64 := by
  induction m with
  | nil => rfl
  | cons c m ih =>
    obtain ⟨q, u⟩ := c
    have hq : p < q := h (q, u) (List.mem_cons_self ..)
    have hm : Memory.Above p m := fun x hx => h x (List.mem_cons_of_mem _ hx)
    rw [Memory.read_cons, if_neg (Nat.ne_of_gt hq), ih hm]

/-- A write lists no index but those listed before and its own. -/
theorem Memory.mem_write {m : Memory} {p : Nat} {v : Item} {c : Nat × Item} (h : c ∈ m.write p v) : c ∈ m ∨ c.1 = p := by
  induction m with
  | nil =>
    rw [Memory.write] at h
    split at h
    · cases h
    · right; simp_all
  | cons d m ih =>
    obtain ⟨q, u⟩ := d
    rw [Memory.write] at h
    split at h
    · split at h
      · exact .inl h
      · rcases List.mem_cons.1 h with rfl | h
        · exact .inr rfl
        · exact .inl h
    · split at h
      · split at h
        · exact .inl (List.mem_cons_of_mem _ h)
        · rcases List.mem_cons.1 h with rfl | h
          · exact .inr rfl
          · exact .inl (List.mem_cons_of_mem _ h)
      · rcases List.mem_cons.1 h with rfl | h
        · exact .inl (List.mem_cons_self ..)
        · exact (ih h).imp (List.mem_cons_of_mem _) id

theorem Memory.above_write {m : Memory} {p q : Nat} {v : Item} (h : Memory.Above q m) (hp : q < p) :
    Memory.Above q (m.write p v) := by
  intro c hc
  rcases Memory.mem_write hc with hm | he
  · exact h c hm
  · rw [he]; exact hp

/-- A write keeps the canonical form. -/
theorem Memory.wf_write {m : Memory} (p : Nat) (v : Item) (h : Memory.wf m = true) : Memory.wf (m.write p v) = true := by
  induction m with
  | nil =>
    rw [Memory.write]
    split
    · rfl
    · next hv => exact (Memory.wf_cons p v []).2 ⟨hv, by simp [Memory.Above], rfl⟩
  | cons c m ih =>
    obtain ⟨q, u⟩ := c
    obtain ⟨hu, ha, hm⟩ := (Memory.wf_cons q u m).1 h
    rw [Memory.write]
    split
    · next hpq =>
      split
      · exact h
      · next hv =>
        refine (Memory.wf_cons p v _).2 ⟨hv, ?_, h⟩
        intro x hx
        rcases List.mem_cons.1 hx with rfl | hx
        · exact hpq
        · exact Nat.lt_trans hpq (ha x hx)
    · next hpq =>
      split
      · next he =>
        subst he
        split
        · exact hm
        · next hv => exact (Memory.wf_cons p v m).2 ⟨hv, ha, hm⟩
      · next hne =>
        have hlt : q < p := by omega
        exact (Memory.wf_cons q u _).2 ⟨hu, Memory.above_write ha hlt, ih hm⟩

/-- Reading where the write went gives the item written. -/
theorem Memory.read_write_same {m : Memory} (p : Nat) (v : Item) (h : Memory.wf m = true) : (m.write p v).read p = v := by
  induction m with
  | nil =>
    rw [Memory.write]
    split
    · next hv => exact hv.symm
    · rw [Memory.read_cons, if_pos rfl]
  | cons c m ih =>
    obtain ⟨q, u⟩ := c
    obtain ⟨_, ha, hm⟩ := (Memory.wf_cons q u m).1 h
    rw [Memory.write]
    split
    · next hpq =>
      split
      · next hv => rw [Memory.read_cons, if_neg (Nat.ne_of_gt hpq), Memory.read_of_above (ha.trans hpq), hv]
      · rw [Memory.read_cons, if_pos rfl]
    · split
      · next he =>
        subst he
        split
        · next hv => rw [Memory.read_of_above ha, hv]
        · rw [Memory.read_cons, if_pos rfl]
      · next hne => rw [Memory.read_cons, if_neg (fun he => hne he.symm), ih hm]

/-- A write leaves every other index alone. -/
theorem Memory.read_write_other (m : Memory) {p r : Nat} (v : Item) (h : r ≠ p) : (m.write p v).read r = m.read r := by
  have hp : ¬p = r := fun he => h he.symm
  induction m with
  | nil =>
    rw [Memory.write]
    split
    · rfl
    · rw [Memory.read_cons, if_neg hp]
  | cons c m ih =>
    obtain ⟨q, u⟩ := c
    rw [Memory.write]
    split
    · split
      · rfl
      · rw [Memory.read_cons, if_neg hp]
    · split
      · next he =>
        subst he
        split
        · rw [Memory.read_cons, if_neg hp]
        · rw [Memory.read_cons, if_neg hp, Memory.read_cons, if_neg hp]
      · rw [Memory.read_cons, Memory.read_cons, ih]

/-- Reading after a write, both cases at once. -/
theorem Memory.read_write {m : Memory} (p r : Nat) (v : Item) (h : Memory.wf m = true) :
    (m.write p v).read r = if r = p then v else m.read r := by
  split
  · next he => rw [he]; exact Memory.read_write_same p v h
  · next hne => exact Memory.read_write_other m v hne

/-- Two memories in canonical form that read alike are equal data. -/
theorem Memory.ext_of_read {m n : Memory} (hm : Memory.wf m = true) (hn : Memory.wf n = true)
    (h : ∀ p, m.read p = n.read p) : m = n := by
  induction m generalizing n with
  | nil =>
    cases n with
    | nil => rfl
    | cons d n =>
      obtain ⟨q, u⟩ := d
      have hu := ((Memory.wf_cons q u n).1 hn).1
      have := h q
      rw [Memory.read_nil, Memory.read_cons, if_pos rfl] at this
      exact absurd this.symm hu
  | cons c m ih =>
    obtain ⟨p, v⟩ := c
    obtain ⟨hv, ha, hm'⟩ := (Memory.wf_cons p v m).1 hm
    cases n with
    | nil =>
      have := h p
      rw [Memory.read_nil, Memory.read_cons, if_pos rfl] at this
      exact absurd this hv
    | cons d n =>
      obtain ⟨q, u⟩ := d
      obtain ⟨hu, hb, hn'⟩ := (Memory.wf_cons q u n).1 hn
      have hpq : p = q := by
        rcases Nat.lt_trichotomy p q with hlt | he | hgt
        · have := h p
          rw [Memory.read_cons, if_pos rfl, Memory.read_cons, if_neg (Nat.ne_of_gt hlt), Memory.read_of_above (hb.trans hlt)] at this
          exact absurd this hv
        · exact he
        · have := h q
          rw [Memory.read_cons, if_neg (Nat.ne_of_gt hgt), Memory.read_of_above (ha.trans hgt), Memory.read_cons, if_pos rfl] at this
          exact absurd this.symm hu
      subst hpq
      have hvu : v = u := by
        have := h p
        rwa [Memory.read, if_pos rfl, Memory.read_cons, if_pos rfl] at this
      subst hvu
      have : m = n := by
        refine ih hm' hn' (fun r => ?_)
        by_cases hr : p = r
        · subst hr; rw [Memory.read_of_above ha, Memory.read_of_above hb]
        · have := h r
          rwa [Memory.read, if_neg hr, Memory.read_cons, if_neg hr] at this
      rw [this]

/-! ### Indices inside the capacity (R50) -/

theorem Memory.within_iff (m : Memory) (cap : Nat) : m.within cap = true ↔ ∀ c ∈ m, c.1 < cap := by
  simp [Memory.within]

theorem Memory.within_write {m : Memory} {cap p : Nat} (v : Item) (h : m.within cap = true) (hp : p < cap) :
    (m.write p v).within cap = true := by
  rw [Memory.within_iff] at h ⊢
  intro c hc
  rcases Memory.mem_write hc with hm | he
  · exact h c hm
  · rw [he]; exact hp

/-- An index at or beyond the capacity reads as zero. -/
theorem Memory.read_beyond {m : Memory} {cap p : Nat} (h : m.within cap = true) (hp : cap ≤ p) : m.read p = 0#64 := by
  rw [Memory.within_iff] at h
  induction m with
  | nil => rfl
  | cons c m ih =>
    obtain ⟨q, u⟩ := c
    have hq : q < cap := h (q, u) (List.mem_cons_self ..)
    rw [Memory.read_cons, if_neg (by omega), ih (fun x hx => h x (List.mem_cons_of_mem _ hx))]

/-! ### Lists of items -/

theorem Memory.wf_writeList {m : Memory} (p : Nat) (vs : List Item) (h : Memory.wf m = true) :
    Memory.wf (m.writeList p vs) = true := by
  induction vs generalizing m p with
  | nil => exact h
  | cons v vs ih => exact ih (p + 1) (Memory.wf_write p v h)

theorem Memory.within_writeList {m : Memory} {cap : Nat} (p : Nat) (vs : List Item) (h : m.within cap = true)
    (hp : p + vs.length ≤ cap) : (m.writeList p vs).within cap = true := by
  induction vs generalizing m p with
  | nil => exact h
  | cons v vs ih =>
    rw [List.length_cons] at hp
    exact ih (p + 1) (Memory.within_write v h (by omega)) (by omega)

@[simp] theorem Memory.length_readList (m : Memory) (p n : Nat) : (m.readList p n).length = n := by
  induction n generalizing p with
  | zero => rfl
  | succ n ih => rw [Memory.readList, List.length_cons, ih]

theorem Memory.getElem_readList (m : Memory) (p n i : Nat) (h : i < (m.readList p n).length) :
    (m.readList p n)[i] = m.read (p + i) := by
  induction n generalizing p i with
  | zero => simp [Memory.readList] at h
  | succ n ih =>
    cases i with
    | zero => simp [Memory.readList]
    | succ i =>
      simp only [Memory.readList, List.getElem_cons_succ]
      rw [ih]
      congr 1
      omega

end Sys2Proof.Machine
end

