-- ==== Sys2Proof/Laws/Store.lean ====
section
/-! SUPPORT. What each store primitive answers on a store that meets its invariant (40_ringstore.md R100 to R107), and that each keeps
the invariant (10_state.md R21). Callers cite these instead of unfolding the primitives. -/

namespace Sys2Proof.Machine

/-! ### Remainders and single accesses -/

theorem windowMod_eq (a : Int) {lsize : Nat} (h : 1 ≤ lsize) : windowMod a lsize = .ok (a % (lsize : Int)).toNat := by
  rw [windowMod, if_neg (by omega)]

/-- A remainder of a natural number is the natural remainder. -/
theorem windowMod_natCast (n : Nat) {lsize : Nat} (h : 1 ≤ lsize) : windowMod (n : Int) lsize = .ok (n % lsize) := by
  rw [windowMod_eq _ h, ← Int.natCast_emod, Int.toNat_natCast]

theorem windowMod_lt (a : Int) {lsize : Nat} (h : 1 ≤ lsize) : (a % (lsize : Int)).toNat < lsize := by
  have h1 := Int.emod_lt_of_pos a (b := (lsize : Int)) (by omega)
  have h2 := Int.emod_nonneg a (b := (lsize : Int)) (by omega)
  omega

theorem memRead1_eq {cap : Nat} (m : Memory) {p : Nat} (h : p < cap) : memRead1 cap m p = .ok (m.read p) := by
  rw [memRead1, memRead, if_pos (by omega)]
  rfl

theorem memWrite_single_eq {cap : Nat} (m : Memory) {p : Nat} (v : Item) (h : p < cap) :
    memWrite cap m p [v] = .ok (m.write p v) := by
  rw [memWrite, if_pos (by simp only [List.length_singleton]; omega)]
  rfl

/-- Translation never leaves the window (20_memory.md R52). -/
theorem phys_eq {cap : Nat} {S : Store} (h : Store.Ok cap S) (k : Int) :
    phys S k = .ok (((S.wc : Int) + k) % (S.lsize : Int)).toNat :=
  windowMod_eq _ h.1

/-! ### The primitives -/

/-- `st_write` (R100). -/
theorem stWrite_eq {cap : Nat} {S : Store} (h : Store.Ok cap S) (v : Item) :
    stWrite cap S v = .ok { lsize := S.lsize, wc := (S.wc + 1) % S.lsize, items := S.items.write S.wc v } := by
  obtain ⟨h1, h2, h3, -, -⟩ := h
  have hw : windowMod ((S.wc : Int) + 1) S.lsize = .ok ((S.wc + 1) % S.lsize) := by
    have := windowMod_natCast (S.wc + 1) h1
    push_cast at this
    exact this
  simp [stWrite, memWrite_single_eq S.items v (show S.wc < cap by omega), hw, bind, Except.bind, pure, Except.pure]

theorem stWrite_ok {cap : Nat} {S : Store} (h : Store.Ok cap S) (v : Item) :
    Store.Ok cap { lsize := S.lsize, wc := (S.wc + 1) % S.lsize, items := S.items.write S.wc v } := by
  obtain ⟨h1, h2, h3, h4, h5⟩ := h
  exact ⟨h1, h2, Nat.mod_lt _ (by omega), Memory.wf_write _ _ h4, Memory.within_write _ h5 (by omega)⟩

/-- `st_read_at` (R104). -/
theorem stReadAt_eq {cap : Nat} {S : Store} (h : Store.Ok cap S) (k : Int) :
    stReadAt cap S k = .ok (S.items.read (((S.wc : Int) + k) % (S.lsize : Int)).toNat) := by
  have hl := windowMod_lt ((S.wc : Int) + k) h.1
  have hp : (((S.wc : Int) + k) % (S.lsize : Int)).toNat < cap := by have := h.2.1; omega
  rw [stReadAt, phys_eq h]
  exact memRead1_eq _ hp

/-- `st_resize` (R105) to a size of at least 1. -/
theorem stResize_eq (S : Store) {n : Nat} (hn : 1 ≤ n) :
    stResize S n = .ok { lsize := n, wc := S.wc % n, items := S.items } := by
  rw [stResize, windowMod_natCast _ hn]
  rfl

theorem stResize_ok {cap : Nat} {S : Store} (h : Store.Ok cap S) {n : Nat} (hn : 1 ≤ n) (hc : n ≤ cap) :
    Store.Ok cap { lsize := n, wc := S.wc % n, items := S.items } :=
  ⟨hn, hc, Nat.mod_lt _ (by omega), h.2.2.2.1, h.2.2.2.2⟩

theorem stClear_ok {cap : Nat} {S : Store} (h : Store.Ok cap S) : Store.Ok cap (stClear S) :=
  ⟨h.1, h.2.1, h.2.2.1, rfl, rfl⟩

/-- `st_clear` is the write of `CAP` zeros at index 0 that R106 gives. -/
theorem stClear_eq_memWrite {cap : Nat} {S : Store} (h : Store.Ok cap S) :
    memWrite cap S.items 0 (List.replicate cap 0#64) = .ok (stClear S).items := by
  rw [memWrite, if_pos (by simp)]
  congr 1
  have key : ∀ (n p : Nat) (m : Memory), Memory.wf m = true → ∀ r,
      (m.writeList p (List.replicate n 0#64)).read r = if p ≤ r ∧ r < p + n then 0#64 else m.read r := by
    intro n
    induction n with
    | zero => intro p m _ r; simp [Memory.writeList]
    | succ n ih =>
      intro p m hm r
      rw [List.replicate_succ, Memory.writeList, ih (p + 1) _ (Memory.wf_write _ _ hm), Memory.read_write _ _ _ hm]
      split_ifs <;> first | rfl | omega
  refine Memory.ext_of_read (Memory.wf_writeList _ _ h.2.2.2.1) rfl (fun r => ?_)
  rw [key cap 0 _ h.2.2.2.1]
  split_ifs with hr
  · rfl
  · exact Memory.read_beyond h.2.2.2.2 (by omega)

theorem stItemAt_eq {cap : Nat} (S : Store) {p : Nat} (h : p < cap) : stItemAt cap S p = .ok (S.items.read p) :=
  memRead1_eq _ h

/-! ### Runs (R101 to R103) -/

/-- A run of reads answers one item for each index, modulo the window. -/
theorem readRun_eq {cap : Nat} {S : Store} (h : Store.Ok cap S) (start : Int) (n : Nat) :
    readRun cap S.lsize S.items start n =
      .ok ((List.range n).map (fun i : Nat => S.items.read ((start + (i : Int)) % (S.lsize : Int)).toNat)) := by
  induction n generalizing start with
  | zero => rfl
  | succ n ih =>
    have hl := windowMod_lt start h.1
    have hp : (start % (S.lsize : Int)).toNat < cap := by have := h.2.1; omega
    simp only [readRun, windowMod_eq _ h.1, memRead1_eq _ hp, ih, bind, Except.bind, pure, Except.pure]
    rw [List.range_succ_eq_map, List.map_cons, List.map_map]
    congr 2
    · simp
    · apply List.map_congr_left
      intro i _
      simp only [Function.comp]
      congr 3
      push_cast
      ring

/-- `st_read_head` (R102). -/
theorem stReadHead_eq {cap : Nat} {S : Store} (h : Store.Ok cap S) (n : Nat) :
    stReadHead cap S n =
      .ok ((List.range n).map (fun i : Nat => S.items.read (((S.wc : Int) - n + (i : Int)) % (S.lsize : Int)).toNat)) := by
  rw [stReadHead, windowMod_eq _ h.1]
  simp only [bind, Except.bind]
  rw [readRun_eq h]
  congr 1
  apply List.map_congr_left
  intro i _
  congr 2
  rw [Int.toNat_of_nonneg (Int.emod_nonneg _ (by have := h.1; omega)), Int.emod_add_emod]

/-- `st_read_tail` (R103). -/
theorem stReadTail_eq {cap : Nat} {S : Store} (h : Store.Ok cap S) (n : Nat) :
    stReadTail cap S n =
      .ok ((List.range n).map (fun i : Nat => S.items.read (((S.wc : Int) + (i : Int)) % (S.lsize : Int)).toNat)) := by
  rw [stReadTail, windowMod_eq _ h.1]
  simp only [bind, Except.bind]
  rw [readRun_eq h]
  congr 1
  apply List.map_congr_left
  intro i _
  congr 2
  rw [Int.toNat_of_nonneg (Int.emod_nonneg _ (by have := h.1; omega)), Int.emod_add_emod]

/-- The loop of `st_write_block` answers a memory in canonical form, inside the capacity, for a run of any length. -/
theorem writeRun_total {cap lsize : Nat} (h1 : 1 ≤ lsize) (h2 : lsize ≤ cap) (vs : List Item) :
    ∀ (m : Memory) (start : Int), Memory.wf m = true → m.within cap = true →
      ∃ m', writeRun cap lsize m start vs = .ok m' ∧ Memory.wf m' = true ∧ m'.within cap = true := by
  induction vs with
  | nil => exact fun m start hw hc => ⟨m, rfl, hw, hc⟩
  | cons v vs ih =>
    intro m start hw hc
    have hl := windowMod_lt start h1
    have hp : (start % (lsize : Int)).toNat < cap := by omega
    obtain ⟨m', he, hr⟩ := ih (m.write (start % (lsize : Int)).toNat v) (start + 1) (Memory.wf_write _ _ hw)
      (Memory.within_write _ hc hp)
    refine ⟨m', ?_, hr⟩
    simp only [writeRun, windowMod_eq _ h1, memWrite_single_eq _ _ hp, bind, Except.bind]
    exact he

/-- `st_write_block` answers a store of the same window, the cursor moved by the block's length, the invariant kept (R101). -/
theorem stWriteBlock_total {cap : Nat} {S : Store} (h : Store.Ok cap S) (vs : List Item) :
    ∃ m', stWriteBlock cap S vs = .ok { lsize := S.lsize, wc := (S.wc + vs.length) % S.lsize, items := m' } ∧
      writeRun cap S.lsize S.items S.wc vs = .ok m' ∧
      Store.Ok cap { lsize := S.lsize, wc := (S.wc + vs.length) % S.lsize, items := m' } := by
  obtain ⟨h1, h2, h3, h4, h5⟩ := h
  obtain ⟨m', he, hw, hc⟩ := writeRun_total h1 h2 vs S.items S.wc h4 h5
  have hm : windowMod ((S.wc : Int) + vs.length) S.lsize = .ok ((S.wc + vs.length) % S.lsize) := by
    have := windowMod_natCast (S.wc + vs.length) h1
    push_cast at this
    exact this
  refine ⟨m', ?_, he, h1, h2, Nat.mod_lt _ (by omega), hw, hc⟩
  simp [stWriteBlock, he, hm, bind, Except.bind, pure, Except.pure]

end Sys2Proof.Machine
end

