-- ==== Sys2Proof/Laws/Commands.lean ====
section
/-! SUPPORT. Every command is the envelope of 60_exceptions.md R170 round an argument check and a run; what each run can do is said
once here, so that a claim over all commands needs neither `exec` nor a meaning unfolded. -/

namespace Sys2Proof.Machine

/-- The argument check of a command (R172). -/
def argCheck (i : Instr) (s : State) : Option FaultCode :=
  match i with
  | .rsWrite _ _ => none
  | .rsWriteb _ vs => checkBlockLen vs.length s
  | .rsReadh _ n => checkBlockLen n s
  | .rsRead _ n => checkBlockLen n s
  | .rsReadt _ n => checkBlockLen n s
  | .rsReadat _ _ => none
  | .rsResize _ n => checkResize n s
  | .rsClear _ => none
  | .rsItemat _ p => checkIndex p s
  | .dlSetdelay _ d => checkDelay d
  | .dlProcess _ _ => none
  | .dlClear _ => none
  | .apSetlen _ d => checkLen d s
  | .apSetgain _ _ => none
  | .apProcess _ _ => none
  | .apClear _ => none

/-- The state writes and the result of a command (R170 step 5). -/
def runCommand (i : Instr) (s : State) : Except Fault (State × List Item) :=
  match i with
  | .rsWrite _ v => runRsWrite (fun cap S => stWrite cap S v) s
  | .rsWriteb _ vs => runRsWrite (fun cap S => stWriteBlock cap S vs) s
  | .rsReadh _ n => runRsRead (fun cap S => stReadHead cap S n) s
  | .rsRead _ n => runRsRead (fun cap S => stReadHead cap S n) s
  | .rsReadt _ n => runRsRead (fun cap S => stReadTail cap S n) s
  | .rsReadat _ k => runRsRead (fun cap S => (stReadAt cap S k).map (fun v => [v])) s
  | .rsResize _ n => runRsWrite (fun _ S => stResize S n) s
  | .rsClear _ => runRsWrite (fun _ S => .ok (stClear S)) s
  | .rsItemat _ p => runRsRead (fun cap S => (stItemAt cap S p).map (fun v => [v])) s
  | .dlSetdelay _ d => runSetDelay d s
  | .dlProcess _ x => runDlProcess x s
  | .dlClear _ => runDlClear s
  | .apSetlen _ d => runSetLen d s
  | .apSetgain _ g => runSetGain g s
  | .apProcess _ x => runApProcess x s
  | .apClear _ => runApClear s

/-- Every command is the envelope round its check and its run. -/
theorem exec_eq_envelope (i : Instr) (s : State) : exec i s = envelope i.unit i.ctx (argCheck i s) (runCommand i) s := by
  cases i <;> rfl

/-! ### What a run can do -/

/-- A run writes no unit but its own, its unit's owner included, and neither the configuration, the fault registers nor the port; only
a unit that computes advances the count of NaN draws. -/
structure RunFrame (u : UnitId) (s t : State) : Prop where
  cfg : t.cfg = s.cfg
  fault : t.fault = s.fault
  fcode : t.fcode = s.fcode
  port : t.port = s.port
  owner : ∀ v, t.owner v = s.owner v
  rs : u ≠ .rs → t.rs = s.rs
  dl : u ≠ .dl → t.dl = s.dl
  ap : u ≠ .ap → t.ap = s.ap
  draws : u = .rs → t.nanDraws = s.nanDraws

theorem runFrame_refl (u : UnitId) (s : State) : RunFrame u s s :=
  ⟨rfl, rfl, rfl, rfl, fun _ => rfl, fun _ => rfl, fun _ => rfl, fun _ => rfl, fun _ => rfl⟩

theorem runRsWrite_frame {f : Nat → Store → Except Fault Store} {s t : State} {q : List Item} (h : runRsWrite f s = .ok (t, q)) :
    RunFrame .rs s t := by
  cases hf : f s.cfg.rsCap s.rs.store with
  | error e => simp [runRsWrite, hf, bind, Except.bind] at h
  | ok S =>
    simp only [runRsWrite, hf, bind, Except.bind, pure, Except.pure, Except.ok.injEq, Prod.mk.injEq] at h
    obtain ⟨rfl, -⟩ := h
    exact ⟨rfl, rfl, rfl, rfl, fun v => by cases v <;> rfl, fun hu => absurd rfl hu, fun _ => rfl, fun _ => rfl, fun _ => rfl⟩

theorem runRsRead_frame {f : Nat → Store → Except Fault (List Item)} {s t : State} {q : List Item} (h : runRsRead f s = .ok (t, q)) :
    t = s := by
  cases hf : f s.cfg.rsCap s.rs.store with
  | error e => simp [runRsRead, hf, bind, Except.bind] at h
  | ok l =>
    simp only [runRsRead, hf, bind, Except.bind, pure, Except.pure, Except.ok.injEq, Prod.mk.injEq] at h
    exact h.1.symm

/-- The frame of a state that differs from `s` in the DL unit and the count of draws, the owner kept. -/
theorem runFrame_dl {s : State} {u : DlUnit} {k : Nat} (h : u.owner = s.dl.owner) : RunFrame .dl s ((s.setDl u).setDraws k) :=
  ⟨rfl, rfl, rfl, rfl, fun v => by cases v <;> first | rfl | exact h, fun _ => rfl, fun hu => absurd rfl hu, fun _ => rfl,
    fun hu => by cases hu⟩

/-- The frame of a state that differs from `s` in the AP unit and the count of draws, the owner kept. -/
theorem runFrame_ap {s : State} {u : ApUnit} {k : Nat} (h : u.owner = s.ap.owner) : RunFrame .ap s ((s.setAp u).setDraws k) :=
  ⟨rfl, rfl, rfl, rfl, fun v => by cases v <;> first | rfl | exact h, fun _ => rfl, fun _ => rfl, fun hu => absurd rfl hu,
    fun hu => by cases hu⟩

/-- The same with the count of draws as it was. -/
theorem runFrame_setDl {s : State} {u : DlUnit} (h : u.owner = s.dl.owner) : RunFrame .dl s (s.setDl u) :=
  runFrame_dl (k := s.nanDraws) h

/-- The same with the count of draws as it was. -/
theorem runFrame_setAp {s : State} {u : ApUnit} (h : u.owner = s.ap.owner) : RunFrame .ap s (s.setAp u) :=
  runFrame_ap (k := s.nanDraws) h

theorem runDlProcess_frame {x : Item} {s t : State} {q : List Item} (h : runDlProcess x s = .ok (t, q)) : RunFrame .dl s t := by
  simp only [runDlProcess, bind, Except.bind, pure, Except.pure] at h
  repeat' split at h
  all_goals first
    | cases h; done
    | simp only [Except.ok.injEq, Prod.mk.injEq] at h; obtain ⟨rfl, -⟩ := h; exact runFrame_dl rfl

theorem runApProcess_frame {x : Item} {s t : State} {q : List Item} (h : runApProcess x s = .ok (t, q)) : RunFrame .ap s t := by
  simp only [runApProcess, bind, Except.bind, pure, Except.pure] at h
  repeat' split at h
  all_goals first
    | cases h; done
    | simp only [Except.ok.injEq, Prod.mk.injEq] at h; obtain ⟨rfl, -⟩ := h; exact runFrame_ap rfl

theorem runSetLen_frame {d : Nat} {s t : State} {q : List Item} (h : runSetLen d s = .ok (t, q)) : RunFrame .ap s t := by
  simp only [runSetLen, bind, Except.bind, pure, Except.pure] at h
  repeat' split at h
  all_goals first
    | cases h; done
    | simp only [Except.ok.injEq, Prod.mk.injEq] at h; obtain ⟨rfl, -⟩ := h; exact runFrame_setAp rfl

/-- Every command's run. -/
theorem runCommand_frame {i : Instr} {s t : State} {q : List Item} (h : runCommand i s = .ok (t, q)) : RunFrame i.unit s t := by
  cases i with
  | rsWrite c v => simp only [runCommand] at h; exact runRsWrite_frame h
  | rsWriteb c vs => simp only [runCommand] at h; exact runRsWrite_frame h
  | rsReadh c n => simp only [runCommand] at h; rw [runRsRead_frame h]; exact runFrame_refl _ _
  | rsRead c n => simp only [runCommand] at h; rw [runRsRead_frame h]; exact runFrame_refl _ _
  | rsReadt c n => simp only [runCommand] at h; rw [runRsRead_frame h]; exact runFrame_refl _ _
  | rsReadat c k => simp only [runCommand] at h; rw [runRsRead_frame h]; exact runFrame_refl _ _
  | rsResize c n => simp only [runCommand] at h; exact runRsWrite_frame h
  | rsClear c => simp only [runCommand] at h; exact runRsWrite_frame h
  | rsItemat c p => simp only [runCommand] at h; rw [runRsRead_frame h]; exact runFrame_refl _ _
  | dlSetdelay c d =>
    simp only [runCommand, runSetDelay, Except.ok.injEq, Prod.mk.injEq] at h
    obtain ⟨rfl, -⟩ := h
    exact runFrame_setDl rfl
  | dlProcess c x => exact runDlProcess_frame h
  | dlClear c =>
    simp only [runCommand, runDlClear, Except.ok.injEq, Prod.mk.injEq] at h
    obtain ⟨rfl, -⟩ := h
    exact runFrame_setDl rfl
  | apSetlen c d => exact runSetLen_frame h
  | apSetgain c g =>
    simp only [runCommand, runSetGain, Except.ok.injEq, Prod.mk.injEq] at h
    obtain ⟨rfl, -⟩ := h
    exact runFrame_setAp rfl
  | apProcess c x => exact runApProcess_frame h
  | apClear c =>
    simp only [runCommand, runApClear, Except.ok.injEq, Prod.mk.injEq] at h
    obtain ⟨rfl, -⟩ := h
    exact runFrame_setAp rfl

/-! ### Binding (R177) -/

/-- After binding, an accepted command's unit is bound to its context, bound before or not. -/
theorem bindOwner_of_accepts {s : State} {u : UnitId} {ctx : Ctx} (h : s.Accepts u ctx) :
    s.bindOwner u ctx = s.setOwner u { bound := true, ctx := ctx } := by
  obtain ⟨-, hf⟩ := h
  unfold State.bindOwner
  split
  · rename_i hb
    simp only [State.foreign, hb, Bool.true_and, bne_eq_false_iff_eq] at hf
    obtain ⟨cfg, ⟨S, o⟩, ⟨D, di, df, o'⟩, ⟨f, g, ga, o''⟩, fa, fc, nd, po⟩ := s
    cases u <;> simp only [State.owner, State.setOwner, State.setRs, State.setDl, State.setAp] at hb hf ⊢
    · obtain ⟨b, c⟩ := o; simp only at hb hf; subst hb hf; rfl
    · obtain ⟨b, c⟩ := o'; simp only at hb hf; subst hb hf; rfl
    · obtain ⟨b, c⟩ := o''; simp only at hb hf; subst hb hf; rfl
  · rfl

/-- An accepted command whose check lets it run and whose run answers. -/
theorem exec_accepted {i : Instr} {s t : State} {q : List Item} (ha : s.Accepts i.unit i.ctx) (hc : argCheck i s = none)
    (hr : runCommand i (s.setOwner i.unit { bound := true, ctx := i.ctx }) = .ok (t, q)) :
    exec i s = .next (t.respond (okResponse q)) := by
  rw [exec_eq_envelope]
  exact envelope_run ha hc (by rw [bindOwner_of_accepts ha]; exact hr)

/-- An accepted command whose check faults (R173). -/
theorem exec_check_faults {i : Instr} {s : State} {c : FaultCode} (ha : s.Accepts i.unit i.ctx) (hc : argCheck i s = some c) :
    exec i s = .next (raiseFault c s) := by
  rw [exec_eq_envelope]
  exact envelope_check ha hc

/-- The check of a command faults exactly when its argument condition fails. -/
theorem argCheck_eq_none_iff (i : Instr) (s : State) : argCheck i s = none ↔ ArgOk s i := by
  cases i <;> simp only [argCheck, ArgOk, checkBlockLen, checkResize, checkIndex, checkDelay, checkLen]
  all_goals (split <;> simp_all <;> omega)

/-! ### The runs of the computing units on states that meet the invariant -/

/-- The run of `DL.PROCESS` (R131, R133). -/
theorem runDlProcess_eq {s : State} (x : Item) (h : DlUnit.Ok s.cfg s.dl) :
    runDlProcess x s =
      let C := dlCap s.cfg
      let m := s.dl.store.items.write s.dl.store.wc x
      let wc := (s.dl.store.wc + 1) % C
      let tap : Int → Item := fun r => m.read (((wc : Int) + tapOffset C s.cfg.dlGuard s.dl.dint r) % (C : Int)).toNat
      .ok ((s.setDl { s.dl with store := { lsize := C, wc := wc, items := m } }).setDraws (s.nanDraws + 4),
        [interp s.cfg.dlMode s.nanDraws (tap (-1)) (tap 0) (tap 1) (tap 2) s.dl.dfrac]) := by
  obtain ⟨hs, hl, -⟩ := h
  have hw := stWrite_ok hs x
  have he := stWrite_eq hs x
  rw [hl] at hw he
  simp only [runDlProcess, readTap, he, stReadAt_eq hw, bind, Except.bind, pure, Except.pure]

/-- The run of `AP.PROCESS` (R152): the items read are those at the cursors. -/
theorem runApProcess_eq {s : State} (x : Item) (h : ApUnit.Ok s.cfg s.ap) :
    runApProcess x s =
      let x1 := s.ap.ff.items.read s.ap.ff.wc
      let y1 := s.ap.fb.items.read s.ap.fb.wc
      let y := allpassOut s.nanDraws s.ap.gain x x1 y1
      .ok ((s.setAp { s.ap with
          ff := { lsize := s.ap.ff.lsize, wc := (s.ap.ff.wc + 1) % s.ap.ff.lsize, items := s.ap.ff.items.write s.ap.ff.wc x }
          fb := { lsize := s.ap.fb.lsize, wc := (s.ap.fb.wc + 1) % s.ap.fb.lsize, items := s.ap.fb.items.write s.ap.fb.wc y } }).setDraws
            (s.nanDraws + 3), [y]) := by
  obtain ⟨hf, hb, -⟩ := h
  have h0 : ∀ {S : Store}, Store.Ok s.cfg.apCap S → (((S.wc : Int) + 0) % (S.lsize : Int)).toNat = S.wc := by
    intro S hS
    have := Nat.mod_eq_of_lt hS.2.2.1
    rw [add_zero, ← Int.natCast_emod, Int.toNat_natCast, this]
  simp only [runApProcess, stReadAt_eq hf, stReadAt_eq hb, h0 hf, h0 hb, stWrite_eq hf, stWrite_eq hb, bind, Except.bind, pure,
    Except.pure]

end Sys2Proof.Machine
end

