-- ==== Sys2Proof/Laws/Header.lean ====
section
/-! SUPPORT. The fields of a header an encoder wrote (30_encoding.md R71), the opcode map as a function and its inverse (R75), and what
each format's decoder answers (R72). -/

namespace Sys2Proof

@[simp] theorem headerOpcode_header (op : Opcode) (c : Ctx) (a : Arg) : headerOpcode (header op c a) = op.byte := by
  ext i hi
  simp only [headerOpcode, header, BitVec.getElem_extractLsb', BitVec.getLsbD_append]
  have h1 : ¬ 56 + i < 32 := by omega
  have h2 : ¬ 56 + i - 32 < 16 := by omega
  have h3 : ¬ 56 + i - 32 - 16 < 8 := by omega
  have h4 : 56 + i - 32 - 16 - 8 = i := by omega
  simp [h1, h2, h3, h4, BitVec.getLsbD_eq_getElem hi]

@[simp] theorem headerCtx_header (op : Opcode) (c : Ctx) (a : Arg) : headerCtx (header op c a) = c := by
  ext i hi
  simp only [headerCtx, header, BitVec.getElem_extractLsb', BitVec.getLsbD_append]
  have h1 : ¬ 48 + i < 32 := by omega
  have h2 : ¬ 48 + i - 32 < 16 := by omega
  have h3 : 48 + i - 32 - 16 < 8 := by omega
  have h4 : 48 + i - 32 - 16 = i := by omega
  simp [h1, h2, h4, hi]

@[simp] theorem headerRsv_header (op : Opcode) (c : Ctx) (a : Arg) : headerRsv (header op c a) = 0#16 := by
  ext i hi
  simp only [headerRsv, header, BitVec.getElem_extractLsb', BitVec.getLsbD_append]
  have h1 : ¬ 32 + i < 32 := by omega
  simp [h1, hi]

@[simp] theorem headerArg_header (op : Opcode) (c : Ctx) (a : Arg) : headerArg (header op c a) = a := by
  ext i hi
  simp only [headerArg, header, BitVec.getElem_extractLsb', BitVec.getLsbD_append]
  simp [hi]

@[simp] theorem ofByte_byte (op : Opcode) : Opcode.ofByte op.byte = some op := by cases op <;> rfl

/-- The opcode a byte names has that byte. -/
theorem byte_of_ofByte {b : BitVec 8} {op : Opcode} (h : Opcode.ofByte b = some op) : op.byte = b := by
  have := List.find?_some h
  simpa using this

/-- Decoding a header an encoder wrote is decoding its operands. -/
theorem decode_header (op : Opcode) (c : Ctx) (a : Arg) (p : List Word) :
    decode (header op c a) p = decodeOperands op c a p := by
  simp [decode]

/-- A header is made of its four fields (R71). -/
theorem header_of_fields {h : Word} {op : Opcode} (ho : op.byte = headerOpcode h) (hr : headerRsv h = 0#16) :
    header op (headerCtx h) (headerArg h) = h := by
  have hz : ∀ j, j < 16 → h.getLsbD (32 + j) = false := by
    intro j hj
    have := congrArg (fun x : BitVec 16 => x.getLsbD j) hr
    simpa [headerRsv, hj] using this
  ext i hi
  rw [← BitVec.getLsbD_eq_getElem hi, ← BitVec.getLsbD_eq_getElem hi]
  simp only [header, BitVec.getLsbD_append, ho, headerOpcode, headerCtx, headerArg, BitVec.getLsbD_extractLsb']
  by_cases h1 : i < 32
  · simp [h1]
  · by_cases h2 : i - 32 < 16
    · have hk := hz (i - 32) h2
      have e : 32 + (i - 32) = i := by omega
      rw [e] at hk
      simp [h1, h2, hk]
    · by_cases h3 : i - 32 - 16 < 8
      · have e : 48 + (i - 32 - 16) = i := by omega
        simp [h1, h2, h3, e]
      · have e : 56 + (i - 32 - 16 - 8) = i := by omega
        have h4 : i - 32 - 16 - 8 < 8 := by omega
        simp [h1, h2, h3, h4, e]

end Sys2Proof
end

