-- ==== Sys2Proof/Laws/PerInstr.lean ====
section
/-! SUPPORT. Statements about every command as syntax, one lemma for each constructor of `Instr`. `RoundTrip`: the words of a
well-formed command decode to the command, `RS.READ` to `RS.READH` (30_encoding.md R71 to R75, R80). -/

namespace Sys2Proof.Laws.RoundTrip

/-- Decoding the words of `i` gives `i` back. -/
def Statement (i : Instr) : Prop :=
  i.wf = true → decode (encode i).1 (encode i).2 = .ok i.canon

/-- An unsigned operand survives its field. -/
theorem toNat_arg {n : Nat} (h : FitsUnsigned n) : (BitVec.ofNat 32 n).toNat = n := by
  rw [BitVec.toNat_ofNat]
  exact Nat.mod_eq_of_lt h

/-- A signed operand survives its field. -/
theorem toInt_arg {k : Int} (h : FitsSigned k) : (BitVec.ofInt 32 k).toInt = k := by
  rw [BitVec.toInt_ofInt]
  obtain ⟨h1, h2⟩ := h
  rw [Int.bmod_eq_of_le] <;> norm_num <;> omega

theorem rsWrite (c : Ctx) (v : Item) : Statement (.rsWrite c v) := fun _ => by
  simp [encode, Instr.opcode, Instr.ctx, Instr.arg, Instr.payload, decode_header, decodeOperands, decodeHP, Instr.canon]

theorem rsWriteb (c : Ctx) (vs : List Item) : Statement (.rsWriteb c vs) := fun h => by
  have hn : FitsUnsigned vs.length := by simpa [Instr.wf] using h
  simp only [encode, Instr.opcode, Instr.ctx, Instr.arg, Instr.payload, decode_header, decodeOperands, decodeHB, toNat_arg hn,
    if_true, Instr.canon]

theorem rsReadh (c : Ctx) (n : Nat) : Statement (.rsReadh c n) := fun h => by
  have hn : FitsUnsigned n := by simpa [Instr.wf] using h
  simp only [encode, Instr.opcode, Instr.ctx, Instr.arg, Instr.payload, decode_header, decodeOperands, decodeHA, toNat_arg hn,
    Instr.canon]

theorem rsRead (c : Ctx) (n : Nat) : Statement (.rsRead c n) := fun h => by
  have hn : FitsUnsigned n := by simpa [Instr.wf] using h
  simp only [encode, Instr.opcode, Instr.ctx, Instr.arg, Instr.payload, decode_header, decodeOperands, decodeHA, toNat_arg hn,
    Instr.canon]

theorem rsReadt (c : Ctx) (n : Nat) : Statement (.rsReadt c n) := fun h => by
  have hn : FitsUnsigned n := by simpa [Instr.wf] using h
  simp only [encode, Instr.opcode, Instr.ctx, Instr.arg, Instr.payload, decode_header, decodeOperands, decodeHA, toNat_arg hn,
    Instr.canon]

theorem rsReadat (c : Ctx) (k : Int) : Statement (.rsReadat c k) := fun h => by
  have hk : FitsSigned k := by simpa [Instr.wf] using h
  simp only [encode, Instr.opcode, Instr.ctx, Instr.arg, Instr.payload, decode_header, decodeOperands, decodeHA, toInt_arg hk,
    Instr.canon]

theorem rsResize (c : Ctx) (n : Nat) : Statement (.rsResize c n) := fun h => by
  have hn : FitsUnsigned n := by simpa [Instr.wf] using h
  simp only [encode, Instr.opcode, Instr.ctx, Instr.arg, Instr.payload, decode_header, decodeOperands, decodeHA, toNat_arg hn,
    Instr.canon]

theorem rsClear (c : Ctx) : Statement (.rsClear c) := fun _ => by
  simp [encode, Instr.opcode, Instr.ctx, Instr.arg, Instr.payload, decode_header, decodeOperands, decodeH0, Instr.canon]

theorem rsItemat (c : Ctx) (p : Nat) : Statement (.rsItemat c p) := fun h => by
  have hn : FitsUnsigned p := by simpa [Instr.wf] using h
  simp only [encode, Instr.opcode, Instr.ctx, Instr.arg, Instr.payload, decode_header, decodeOperands, decodeHA, toNat_arg hn,
    Instr.canon]

theorem dlSetdelay (c : Ctx) (d : Item) : Statement (.dlSetdelay c d) := fun _ => by
  simp [encode, Instr.opcode, Instr.ctx, Instr.arg, Instr.payload, decode_header, decodeOperands, decodeHP, Instr.canon]

theorem dlProcess (c : Ctx) (x : Item) : Statement (.dlProcess c x) := fun _ => by
  simp [encode, Instr.opcode, Instr.ctx, Instr.arg, Instr.payload, decode_header, decodeOperands, decodeHP, Instr.canon]

theorem dlClear (c : Ctx) : Statement (.dlClear c) := fun _ => by
  simp [encode, Instr.opcode, Instr.ctx, Instr.arg, Instr.payload, decode_header, decodeOperands, decodeH0, Instr.canon]

theorem apSetlen (c : Ctx) (d : Nat) : Statement (.apSetlen c d) := fun h => by
  have hn : FitsUnsigned d := by simpa [Instr.wf] using h
  simp only [encode, Instr.opcode, Instr.ctx, Instr.arg, Instr.payload, decode_header, decodeOperands, decodeHA, toNat_arg hn,
    Instr.canon]

theorem apSetgain (c : Ctx) (g : Item) : Statement (.apSetgain c g) := fun _ => by
  simp [encode, Instr.opcode, Instr.ctx, Instr.arg, Instr.payload, decode_header, decodeOperands, decodeHP, Instr.canon]

theorem apProcess (c : Ctx) (x : Item) : Statement (.apProcess c x) := fun _ => by
  simp [encode, Instr.opcode, Instr.ctx, Instr.arg, Instr.payload, decode_header, decodeOperands, decodeHP, Instr.canon]

theorem apClear (c : Ctx) : Statement (.apClear c) := fun _ => by
  simp [encode, Instr.opcode, Instr.ctx, Instr.arg, Instr.payload, decode_header, decodeOperands, decodeH0, Instr.canon]

end Sys2Proof.Laws.RoundTrip
end

