-- ==== Sys2Proof/Tests/Slice0.lean ====
section
/-! SUPPORT. Small tests. Every expected value is the spec's own: the worked encodings of 30_encoding.md R81, the examples of the command
rules, and the vectors of 95_test_vectors.md. The last part shows, for each statement that has hypotheses, that they can be met. -/

namespace Sys2Proof.Tests

set_option Elab.async false

open Sys2Proof Sys2Proof.Machine

/-! ### Ill-formed commands (R73) -/

theorem test_illformed_readh : (Instr.rsReadh 1#8 4294967296).wf = false := by decide
theorem test_illformed_read : (Instr.rsRead 1#8 4294967296).wf = false := by decide
theorem test_illformed_readt : (Instr.rsReadt 1#8 4294967296).wf = false := by decide
theorem test_illformed_readat_high : (Instr.rsReadat 1#8 2147483648).wf = false := by decide
theorem test_illformed_readat_low : (Instr.rsReadat 1#8 (-2147483649)).wf = false := by decide
theorem test_illformed_resize : (Instr.rsResize 1#8 4294967296).wf = false := by decide
theorem test_illformed_itemat : (Instr.rsItemat 1#8 4294967296).wf = false := by decide
theorem test_illformed_setlen : (Instr.apSetlen 1#8 4294967296).wf = false := by decide
theorem test_illformed_writeb (vs : List Item) (h : vs.length = 4294967296) : (Instr.rsWriteb 1#8 vs).wf = false := by
  simp [Instr.wf, FitsUnsigned, h]
theorem test_wellformed_readat : (Instr.rsReadat 1#8 (-2147483648)).wf = true := by decide

/-! ### Decoding: words written out from R71 and R75 (V-ENC-1 to V-ENC-28) -/

theorem test_decode_write : decode 0x0101000000000000#64 [0x3FF0000000000000#64] = .ok (.rsWrite 1#8 0x3FF0000000000000#64) := by
  decide
theorem test_decode_writeb : decode 0x0201000000000002#64 [0x401C000000000000#64, 0x4020000000000000#64] =
    .ok (.rsWriteb 1#8 [0x401C000000000000#64, 0x4020000000000000#64]) := by decide
theorem test_decode_readh : decode 0x0301000000000003#64 [] = .ok (.rsReadh 1#8 3) := by decide
theorem test_decode_readt : decode 0x04FF000000000000#64 [] = .ok (.rsReadt 255#8 0) := by decide
theorem test_decode_readat : decode 0x0501000080000000#64 [] = .ok (.rsReadat 1#8 (-2147483648)) := by decide
theorem test_decode_readat_top : decode 0x050100007FFFFFFF#64 [] = .ok (.rsReadat 1#8 2147483647) := by decide
theorem test_decode_resize : decode 0x0601000000000003#64 [] = .ok (.rsResize 1#8 3) := by decide
theorem test_decode_clear : decode 0x0700000000000000#64 [] = .ok (.rsClear 0#8) := by decide
theorem test_decode_itemat : decode 0x0801000000000006#64 [] = .ok (.rsItemat 1#8 6) := by decide
theorem test_decode_setdelay : decode 0x1002000000000000#64 [0x4004000000000000#64] = .ok (.dlSetdelay 2#8 0x4004000000000000#64) := by
  decide
theorem test_decode_dlprocess : decode 0x1102000000000000#64 [0x4024000000000000#64] = .ok (.dlProcess 2#8 0x4024000000000000#64) := by
  decide
theorem test_decode_dlclear : decode 0x1202000000000000#64 [] = .ok (.dlClear 2#8) := by decide
theorem test_decode_setlen : decode 0x2003000000000004#64 [] = .ok (.apSetlen 3#8 4) := by decide
theorem test_decode_setgain : decode 0x2103000000000000#64 [0x3FE0000000000000#64] = .ok (.apSetgain 3#8 0x3FE0000000000000#64) := by
  decide
theorem test_decode_approcess : decode 0x2203000000000000#64 [0x3FF0000000000000#64] = .ok (.apProcess 3#8 0x3FF0000000000000#64) := by
  decide
theorem test_decode_apclear : decode 0x2303000000000000#64 [] = .ok (.apClear 3#8) := by decide
theorem test_decode_reserved_00 : decode 0x0001000000000000#64 [] = .error .reservedOpcode := by decide
theorem test_decode_reserved_13 : decode 0x1302000000000000#64 [] = .error .reservedOpcode := by decide
theorem test_decode_reserved_ff : decode 0xFF01000000000000#64 [] = .error .reservedOpcode := by decide
theorem test_decode_rsv_bits : decode 0x0101000100000000#64 [0x3FF0000000000000#64] = .error .reservedBits := by decide
theorem test_decode_h0_arg : decode 0x0701000000000001#64 [] = .error .argNotZero := by decide
theorem test_decode_hp_arg : decode 0x1102000000000001#64 [0x3FF0000000000000#64] = .error .argNotZero := by decide
theorem test_decode_hp_payload : decode 0x0101000000000000#64 [] = .error .payloadLength := by decide
theorem test_decode_ha_payload : decode 0x0301000000000003#64 [0x3FF0000000000000#64] = .error .payloadLength := by decide
theorem test_decode_hb_payload : decode 0x0201000000000003#64 [0#64, 0#64] = .error .payloadLength := by decide

/-- `RS.READ` has the words of `RS.READH` (R80, V-ENC-4). -/
theorem test_encode_read : encode (.rsRead 1#8 3) = (0x0301000000000003#64, []) := by decide

/-- The row `DL.PROCESS` of opcode_table.json, its operand word zero. -/
theorem test_table_word : decodeTableWord 64 0x1100000000000000 = some (.dlProcess 0#8 0#64) := by decide +kernel

/-- Every row's mask and match, against the opcode and the unit of R71. -/
theorem test_table_rows :
    Opcode.all.all (fun op => op.pattern.extractLsb' 56 8 == op.byte && (op.pattern &&& op.mask) == op.pattern &&
      op.byte.extractLsb' 4 4 == (match op.unit with | .rs => 0#4 | .dl => 1#4 | .ap => 2#4)) = true := by decide

/-! ### Single steps -/

/-- The next state, if there is one. -/
def next? (o : Host.Outcome State Fault Refusal) : Option State :=
  match o with
  | .next t => some t
  | .fault _ => none
  | .refused _ => none

/-- The memory that holds these items from index 0 on. -/
def mem (l : List Item) : Memory := ((List.range l.length).zip l).filter (fun c => c.2 != 0#64)

/-- The data of the last response. -/
def answer (o : Host.Outcome State Fault Refusal) : Option (List Item) := ((next? o).bind (fun t => t.port.outbox.head?)).map (·.q)

/-- The status word of the last response. -/
def status (o : Host.Outcome State Fault Refusal) : Option Word := ((next? o).bind (fun t => t.port.outbox.head?)).map (·.w)

/-- `1 .. 15` as binary64, by 30_encoding.md R74. -/
def num (n : Nat) : Item := f64 n

/-- CFG-A with this RS store. -/
def rsState (lsize wc : Nat) (l : List Nat) : State :=
  State.reset.setRs { store := { lsize := lsize, wc := wc, items := mem (l.map num) }, owner := Owner.unbound }

/-- CFG-A with this DL unit. -/
def dlState (wc : Nat) (l : List Nat) (dint : Nat) (dfrac : Item) : State :=
  State.reset.setDl { store := { lsize := 7, wc := wc, items := mem (l.map num) }, dint := dint, dfrac := dfrac, owner := Owner.unbound }

/-- CFG-A with this AP unit. -/
def apState (len wc : Nat) (ff fb : List Item) (gain : Item) : State :=
  let store (l : List Item) : Store := { lsize := len, wc := wc, items := mem l }
  State.reset.setAp { ff := store ff, fb := store fb, gain := gain, owner := Owner.unbound }

/-- R110's example: the cursor wraps at the window. -/
theorem test_write_wraps : (next? (exec (.rsWrite 1#8 (num 15)) (rsState 8 7 [9, 10, 11, 12, 13, 14, 0, 8]))).map (·.rs.store) =
    some { lsize := 8, wc := 0, items := mem ([9, 10, 11, 12, 13, 14, 0, 15].map num) } := by decide +kernel

/-- V-RS-6: the window ends at `LSIZE`, not at the capacity. -/
theorem test_write_shrunk : (next? (exec (.rsWrite 1#8 (num 98)) (rsState 3 2 [9, 99, 11, 12, 13, 14, 15, 8]))).map (·.rs.store) =
    some { lsize := 3, wc := 0, items := mem ([9, 99, 98, 12, 13, 14, 15, 8].map num) } := by decide +kernel

/-- V-RS-2. -/
theorem test_writeb_wraps :
    (next? (exec (.rsWriteb 1#8 ([7, 8, 9, 10].map num)) (rsState 8 6 [1, 2, 3, 4, 5, 6, 0, 0]))).map (·.rs.store) =
    some { lsize := 8, wc := 2, items := mem ([9, 10, 3, 4, 5, 6, 7, 8].map num) } := by decide +kernel

/-- V-F-16: the bound is the window. -/
theorem test_writeb_too_long : status (exec (.rsWriteb 1#8 ([1, 2, 3, 4].map num)) (rsState 3 0 [])) = some 0x0300000000000000#64 := by
  decide +kernel

/-- V-RS-3. -/
theorem test_readh : answer (exec (.rsReadh 1#8 3) (rsState 8 2 [9, 10, 3, 4, 5, 6, 7, 8])) = some ([8, 9, 10].map num) := by
  decide +kernel

/-- R80: the second name answers the same. -/
theorem test_read : answer (exec (.rsRead 1#8 2) (rsState 8 2 [9, 10, 3, 4, 5, 6, 7, 8])) = some ([9, 10].map num) := by decide +kernel

/-- V-RS-3. -/
theorem test_readt : answer (exec (.rsReadt 1#8 7) (rsState 8 2 [9, 10, 3, 4, 5, 6, 7, 8])) = some ([3, 4, 5, 6, 7, 8, 9].map num) := by
  decide +kernel

/-- V-RS-4, `k = -9`: the Euclidean remainder. -/
theorem test_readat_negative : answer (exec (.rsReadat 1#8 (-9)) (rsState 8 2 [9, 10, 3, 4, 5, 6, 7, 8])) = some [num 10] := by
  decide +kernel

/-- V-RS-4, `k = -2^31`. -/
theorem test_readat_lowest : answer (exec (.rsReadat 1#8 (-2147483648)) (rsState 8 2 [9, 10, 3, 4, 5, 6, 7, 8])) = some [num 3] := by
  decide +kernel

/-- V-RS-5: a shrink below the cursor. -/
theorem test_resize_shrink : (next? (exec (.rsResize 1#8 3) (rsState 8 7 [9, 10, 11, 12, 13, 14, 15, 8]))).map (·.rs.store) =
    some { lsize := 3, wc := 1, items := mem ([9, 10, 11, 12, 13, 14, 15, 8].map num) } := by decide +kernel

/-- V-RS-17. -/
theorem test_resize_zero : status (exec (.rsResize 1#8 0) State.reset) = some 0x0400000000000000#64 := by decide +kernel

/-- V-RS-14. -/
theorem test_clear : (next? (exec (.rsClear 1#8) (rsState 3 2 [9, 99, 11, 12, 13, 14, 15, 8]))).map (·.rs.store) =
    some { lsize := 3, wc := 2, items := [] } := by decide +kernel

/-- V-RS-15: the unreachable region. -/
theorem test_itemat : answer (exec (.rsItemat 1#8 6) (rsState 3 2 [9, 99, 11, 12, 13, 14, 15, 8])) = some [num 15] := by decide +kernel

/-- V-F-7. -/
theorem test_itemat_beyond : status (exec (.rsItemat 1#8 8) State.reset) = some 0x0600000000000000#64 := by decide +kernel

/-- V-DL-6, request 2.5. -/
theorem test_setdelay_split : (next? (exec (.dlSetdelay 2#8 0x4004000000000000#64) State.reset)).map (fun t => (t.dl.dint, t.dl.dfrac)) =
    some (2, 0x3FE0000000000000#64) := by decide +kernel

/-- V-DL-6, request 3.999999999999999: the fraction is the exact difference. -/
theorem test_setdelay_exact : (next? (exec (.dlSetdelay 2#8 0x400FFFFFFFFFFFFE#64) State.reset)).map (fun t => (t.dl.dint, t.dl.dfrac)) =
    some (3, 0x3FEFFFFFFFFFFFF8#64) := by decide +kernel

/-- V-DL-3: tap positions and the linear interpolation. -/
theorem test_dlprocess_linear :
    answer (exec (.dlProcess 2#8 (num 10)) (dlState 2 [8, 9, 3, 4, 5, 6, 7] 2 0x3FE0000000000000#64)) = some [0x401E000000000000#64] := by
  decide +kernel

/-- V-DL-4: the greatest delay reaches the oldest retained sample. -/
theorem test_dlprocess_oldest :
    answer (exec (.dlProcess 2#8 (num 11)) (dlState 3 [8, 9, 10, 4, 5, 6, 7] 4 0#64)) = some [0x401C000000000000#64] := by
  decide +kernel

/-- V-DL-8. -/
theorem test_dlclear : (next? (exec (.dlClear 2#8) (dlState 3 [8, 9, 10, 4, 5, 6, 7] 2 0x3FE0000000000000#64))).map
    (fun t => (t.dl.store, t.dl.dint, t.dl.dfrac)) = some ({ lsize := 7, wc := 3, items := [] }, 2, 0x3FE0000000000000#64) := by
  decide +kernel

/-- R150's example. -/
theorem test_setlen : (next? (exec (.apSetlen 3#8 2) (apState 5 2 [] [] 0#64))).map (fun t => (t.ap.ff, t.ap.fb)) =
    some ({ lsize := 2, wc := 0, items := [] }, { lsize := 2, wc := 0, items := [] }) := by decide +kernel

/-- V-F-5. -/
theorem test_setlen_beyond : status (exec (.apSetlen 3#8 7) State.reset) = some 0x0500000000000000#64 := by decide +kernel

/-- V-AP-5: an infinite gain is stored. -/
theorem test_setgain : (next? (exec (.apSetgain 3#8 0x7FF0000000000000#64) State.reset)).map (·.ap.gain) =
    some 0x7FF0000000000000#64 := by decide +kernel

/-- S3, `n = 1`: reads come before writes. -/
theorem test_approcess :
    (next? (exec (.apProcess 3#8 0#64) (apState 1 0 [num 1] [0x3FE0000000000000#64] 0x3FE0000000000000#64))).map
      (fun t => (t.ap.ff.items, t.ap.fb.items)) = some ([], [(0, 0x3FE8000000000000#64)]) := by decide +kernel

/-- V-AP-3, `n = 1`: each operation rounded once, none fused. -/
theorem test_approcess_rounds :
    answer (exec (.apProcess 3#8 0#64) (apState 1 0 [num 1] [0x3FB999999999999A#64] 0x3FB999999999999A#64)) =
      some [0x3FEFAE147AE147AE#64] := by decide +kernel

/-- V-AP-7. -/
theorem test_apclear : (next? (exec (.apClear 3#8) (apState 5 2 [num 10] [num 9] 0x3FE0000000000000#64))).map
    (fun t => (t.ap.ff, t.ap.fb, t.ap.gain)) =
      some ({ lsize := 5, wc := 2, items := [] }, { lsize := 5, wc := 2, items := [] }, 0x3FE0000000000000#64) := by decide +kernel

/-- V-F-6: reads are owner-checked. -/
theorem test_owner_fault :
    status (exec (.rsReadh 2#8 1) (State.reset.setOwner .rs { bound := true, ctx := 1#8 })) = some 0x0200000000000000#64 := by
  decide +kernel

/-- V-F-14: an empty read binds the owner. -/
theorem test_empty_read_binds : (next? (exec (.rsReadh 7#8 0) State.reset)).map (·.rs.owner) = some { bound := true, ctx := 7#8 } := by
  decide +kernel

/-- A pending event. -/
def pending (e : HostEvent) (s : State) : State := s.setInbox [e]

/-- V-F-1. -/
theorem test_step_illegal : (next? (step (pending (.command 0x0901000000000000#64 []) State.reset))).map
    (fun t => (t.fault, t.fcode, t.rs.owner.bound)) = some (true, 1#8, false) := by decide +kernel

/-- V-F-9: a halted CORE answers `0x80 + FCODE`, an illegal command too. -/
theorem test_step_halted :
    status (step (pending (.command 0x0901000000000000#64 []) (State.reset.setFault true 3#8))) = some 0x8300000000000000#64 := by
  decide +kernel

/-- V-F-15: RESET clears the halt. -/
theorem test_step_reset : (next? (step (pending .reset (State.reset.setFault true 2#8)))).map (·.fault) = some false := by decide +kernel

/-- The first step after a command is placed runs it: `DL.PROCESS` of `+0` (log 2, log 15). -/
theorem test_first_step : status (step (State.reset.withFetchWord 64 0x1100000000000000)) = some 0x0000000000000001#64 := by
  decide +kernel

/-- R4, R5: a function without P_INTERP0 is no value of the parameter `INTERP_CUBIC4`. -/
theorem test_illegal_interpolator : ¬ ∃ i : Interpolator, i.fn = fun _ _ _ _ _ => 0#64 := by
  rintro ⟨i, hi⟩
  have h := (i.legal 0#64 0x3FF0000000000000#64 0#64 0#64 rfl rfl rfl rfl).2
  rw [hi] at h
  revert h
  decide +kernel

/-! ### Arithmetic and text -/

/-- V-DL-2: the sum of `-0` and `+0` is `+0`, of `-0` and `-0` is `-0`. -/
theorem test_zero_sums : fadd 0 0x8000000000000000#64 0#64 = 0#64 ∧
    fadd 0 0x8000000000000000#64 0x8000000000000000#64 = 0x8000000000000000#64 := by decide +kernel

/-- V-AP-2: `2 * (-3 * 2^1022)` overflows. -/
theorem test_overflow : fmul 0 0x4000000000000000#64 0xFFE8000000000000#64 = 0xFFF0000000000000#64 := by decide +kernel

/-- R79's example line, with a comment. -/
theorem test_assemble_block : assembleWords "RS.WRITEB @1, [7.0, 8.0] ; two".toList =
    some [(0x0201000000000002#64, [0x401C000000000000#64, 0x4020000000000000#64])] := by decide +kernel

/-- R80: a pseudo-instruction is one command for each sample. -/
theorem test_assemble_expand : assemble "DL.PROCESSB @2, [1.0, 2.5]".toList =
    some [.dlProcess 2#8 0x3FF0000000000000#64, .dlProcess 2#8 0x4004000000000000#64] := by decide +kernel

/-- V-DL-7: `2.9` is the nearest binary64. -/
theorem test_assemble_decimal : assembleLine "DL.SETDELAY @2, 2.9".toList = some [.dlSetdelay 2#8 0x4007333333333333#64] := by
  decide +kernel

/-- R79: an item is not a bare integer. -/
theorem test_assemble_refuses : assembleLine "RS.WRITE @1, 1".toList = none := by decide +kernel

/-! ### The hypotheses of the statements can be met -/

/-- The invariant holds of a state, every unit unbound and CORE running, so every context is accepted. -/
theorem witness_inv : State.reset.Inv := by decide +kernel

theorem witness_accepts : State.reset.Accepts .rs 1#8 ∧ State.reset.Accepts .dl 2#8 ∧ State.reset.Accepts .ap 3#8 := by decide +kernel

theorem witness_wellformed : (Instr.rsReadat 255#8 (-1)).wf = true ∧ (Instr.rsWriteb 0#8 [1#64]).wf = true := by decide

theorem witness_decodes : decode 0x0301000000000003#64 [] = .ok (.rsReadh 1#8 3) := by decide

theorem witness_row_selected : 0x0301000000000003#64 &&& Opcode.rsReadh.mask = Opcode.rsReadh.pattern := by decide

theorem witness_assembles : assembleLine "RS.CLEAR @255".toList = some [.rsClear 255#8] := by decide +kernel

/-- A running CORE with a legal command pending. -/
theorem witness_step_command : cfgValid (pending (.command 0x0301000000000003#64 []) State.reset).cfg = true ∧
    (pending (.command 0x0301000000000003#64 []) State.reset).fault = false ∧
    (pending (.command 0x0301000000000003#64 []) State.reset).Inv := by decide +kernel

/-- A running CORE with an illegal command pending. -/
theorem witness_step_illegal : (pending (.command 0x0901000000000000#64 []) State.reset).fault = false ∧
    decode 0x0901000000000000#64 [] = .error .reservedOpcode := by decide +kernel

/-- A step that faults. -/
theorem witness_step_faults :
    (next? (step (pending (.command 0x0601000000000009#64 []) State.reset))).map (·.fault) = some true := by decide +kernel

/-- A halted CORE with a command pending, and one that meets the invariant. -/
theorem witness_halted : (pending (.command 0x0301000000000003#64 []) (State.reset.setFault true 3#8)).fault = true ∧
    (pending (.command 0x0301000000000003#64 []) (State.reset.setFault true 3#8)).Inv := by decide +kernel

/-- A unit bound to another context. -/
theorem witness_foreign : ((State.reset.setOwner .ap { bound := true, ctx := 1#8 }).owner (Instr.apClear 2#8).unit).bound = true ∧
    ((State.reset.setOwner .ap { bound := true, ctx := 1#8 }).owner (Instr.apClear 2#8).unit).ctx ≠ (Instr.apClear 2#8).ctx := by
  decide +kernel

/-- A command whose argument check fails, and one whose check lets it run. -/
theorem witness_argument : ¬ ArgOk State.reset (.rsResize 1#8 9) ∧ ArgOk State.reset (.rsResize 1#8 8) := by decide +kernel

/-- Arguments out of range, for each argument fault: one past the bound, and 0. -/
theorem witness_out_of_range : State.reset.rs.store.lsize < 9 ∧ (List.replicate 9 1#64).length = 9 ∧ State.reset.cfg.rsCap < 9 ∧
    State.reset.cfg.apCap < 7 ∧ State.reset.cfg.rsCap ≤ 8 ∧ isNaN 0x7FF0000000000001#64 = true := by decide +kernel

/-- Arguments on the bound, in range. -/
theorem witness_in_range : (List.replicate 8 1#64).length ≤ State.reset.rs.store.lsize ∧ 8 ≤ State.reset.rs.store.lsize ∧
    8 ≤ State.reset.cfg.rsCap ∧ 7 < State.reset.cfg.rsCap ∧ 6 ≤ State.reset.cfg.apCap := by decide +kernel

/-- A store, a shrink and a run inside it. -/
theorem witness_store : Store.Ok 8 (rsState 8 7 [1, 2]).rs.store ∧ 7 < (rsState 8 7 [1, 2]).rs.store.lsize ∧
    3 < (rsState 8 7 [1, 2]).rs.store.lsize := by decide +kernel

/-- Delay requests of the three ranges of R130: below, inside and above. -/
theorem witness_delays : val 0x8000000000000000#64 ≤ 0 ∧ 0 < val 0x4004000000000000#64 ∧
    val 0x4004000000000000#64 < ((State.reset.cfg.dlMaxd * oneMag : Nat) : Int) ∧
    ((State.reset.cfg.dlMaxd * oneMag : Nat) : Int) ≤ val 0x7FF0000000000000#64 ∧ isNaN 0x7FF0000000000000#64 = false := by
  decide +kernel

/-- Finite history, a fraction of 0 and more inputs than the delay. -/
theorem witness_history : State.reset.dl.dfrac = 0#64 ∧ State.reset.dl.dint < [0x3FF0000000000000#64].length ∧
    State.reset.dl.store.items = [] ∧ isFinite 0#64 = true ∧ isFinite 0x3FF0000000000000#64 = true := by
  decide +kernel

/-- The same in mode `CUBIC4`, whatever its interpolator. -/
theorem witness_mode_cubic4 : (State.resetWith { Config.cfgA with dlMode := .cubic4 }).Inv := by decide +kernel

/-- The same in mode `NONE`. -/
theorem witness_mode_none : (State.resetWith { Config.cfgA with dlMode := .none, dlGuard := 1 }).Inv := by decide +kernel

/-- Zero histories of an allpass. -/
theorem witness_zero_histories : State.reset.ap.ff.items = [] ∧ State.reset.ap.fb.items = [] := by decide +kernel

/-- Finite operands, one sum at the rounding threshold of infinity and one below it. -/
theorem witness_threshold : isFinite 0x7FEFFFFFFFFFFFFF#64 = true ∧ isFinite 0x7C90000000000000#64 = true ∧
    isInf (fadd 0 0x7FEFFFFFFFFFFFFF#64 0x7C90000000000000#64) = true ∧
    isFinite (fadd 0 0x7FEFFFFFFFFFFFFF#64 0x7C80000000000000#64) = true := by decide +kernel

/-- A RESET pending on a halted CORE. -/
theorem witness_reset_pending : (pending .reset (State.reset.setFault true 2#8)).port.inbox = [.reset] ∧
    cfgValid (pending .reset (State.reset.setFault true 2#8)).cfg = true := by decide +kernel

/-- A configuration that builds a block, and one that does not: the guard count is below `GUARD_MIN(CUBIC4)`. -/
theorem witness_configurations : cfgValid { Config.cfgA with dlMode := .cubic4 } = true ∧
    cfgValid { Config.cfgA with dlMode := .cubic4, dlGuard := 2 } = false := by decide +kernel

/-- Two states that an RS command cannot tell apart but that differ elsewhere. -/
theorem witness_same_for : SameFor .rs State.reset (State.reset.setDl (dlState 3 [1] 2 0#64).dl) ∧
    SameFor .dl State.reset (State.reset.setAp (apState 2 1 [1#64] [] 0#64).ap) ∧
    SameFor .ap State.reset (State.reset.setRs (rsState 3 1 [1]).rs) := by decide +kernel

/-- Nothing pending. -/
theorem witness_idle : State.reset.port.inbox = [] ∧ cfgValid State.reset.cfg = true := by decide +kernel

/-- A command that answers a next state. -/
theorem witness_exec_next : (next? (exec (.apSetgain 3#8 0x3FE0000000000000#64) State.reset)).isSome = true := by decide +kernel

end Sys2Proof.Tests
end

/-! PROOFS. Totality of a step (00_scope.md R8, 40_ringstore.md R121): on states that meet the invariant every run answers, so the
envelope, and with it the step, answers a next state. A configuration that builds no block is refused (R5). -/

namespace Sys2Proof.Machine

/-! ### Binding an owner keeps what a run relies on -/

/-- The invariant does not speak of owners, so binding one keeps it (R177). -/
theorem State.Inv.bindOwner {s : State} (h : s.Inv) (u : UnitId) (ctx : Ctx) : (s.bindOwner u ctx).Inv := by
  simpa [State.Inv, State.FaultOk, DlUnit.Ok, ApUnit.Ok] using h

theorem State.Inv.setInbox {s : State} (h : s.Inv) (rest : List HostEvent) : (s.setInbox rest).Inv := h

/-- No argument check looks at an owner (R172). -/
theorem argOk_bindOwner (s : State) (i : Instr) (u : UnitId) (ctx : Ctx) : ArgOk (s.bindOwner u ctx) i ↔ ArgOk s i := by
  cases i <;> simp [ArgOk]

/-! ### Every run answers (R8, R121) -/

theorem runRsWrite_answers {f : Nat → Store → Except Fault Store} {s : State} (h : ∃ S, f s.cfg.rsCap s.rs.store = .ok S) :
    ∃ p, runRsWrite f s = .ok p := by
  obtain ⟨S, hS⟩ := h
  exact ⟨_, by rw [runRsWrite, hS]; rfl⟩

theorem runRsRead_answers {f : Nat → Store → Except Fault (List Item)} {s : State} (h : ∃ q, f s.cfg.rsCap s.rs.store = .ok q) :
    ∃ p, runRsRead f s = .ok p := by
  obtain ⟨q, hq⟩ := h
  exact ⟨_, by rw [runRsRead, hq]; rfl⟩

theorem runSetLen_answers {d : Nat} (s : State) (hd : 1 ≤ d) : ∃ p, runSetLen d s = .ok p :=
  ⟨_, by rw [runSetLen, stResize_eq _ hd, stResize_eq _ hd]; rfl⟩

/-- The run of a command whose argument check passes answers: no access leaves a store and no window is empty. -/
theorem runCommand_answers {s : State} {i : Instr} (h : s.Inv) (ha : ArgOk s i) : ∃ p, runCommand i s = .ok p := by
  obtain ⟨-, hrs, hdl, hap, -⟩ := h
  unfold runCommand
  cases i with
  | rsWrite c v => exact runRsWrite_answers ⟨_, stWrite_eq hrs v⟩
  | rsWriteb c vs =>
    obtain ⟨m, hm, -⟩ := stWriteBlock_total hrs vs
    exact runRsWrite_answers ⟨_, hm⟩
  | rsReadh c n => exact runRsRead_answers ⟨_, stReadHead_eq hrs n⟩
  | rsRead c n => exact runRsRead_answers ⟨_, stReadHead_eq hrs n⟩
  | rsReadt c n => exact runRsRead_answers ⟨_, stReadTail_eq hrs n⟩
  | rsReadat c k => exact runRsRead_answers ⟨_, by rw [stReadAt_eq hrs k]; rfl⟩
  | rsResize c n => exact runRsWrite_answers ⟨_, stResize_eq _ ha.1⟩
  | rsClear c => exact runRsWrite_answers ⟨_, rfl⟩
  | rsItemat c p => exact runRsRead_answers ⟨_, by rw [stItemAt_eq _ ha]; rfl⟩
  | dlSetdelay c d => exact ⟨_, rfl⟩
  | dlProcess c x => exact ⟨_, runDlProcess_eq x hdl⟩
  | dlClear c => exact ⟨_, rfl⟩
  | apSetlen c d => exact runSetLen_answers s ha.1
  | apSetgain c g => exact ⟨_, rfl⟩
  | apProcess c x => exact ⟨_, runApProcess_eq x hap⟩
  | apClear c => exact ⟨_, rfl⟩

/-! ### Every step answers a next state -/

/-- The envelope answers a next state when the run answers wherever the earlier steps of R170 let it start. -/
theorem envelope_answers {u : UnitId} {ctx : Ctx} {check : Option FaultCode} {run : State → Except Fault (State × List Item)}
    {s : State} (h : s.Accepts u ctx → check = none → ∃ p, run (s.bindOwner u ctx) = .ok p) :
    ∃ t, envelope u ctx check run s = .next t := by
  cases hf : s.fault with
  | true => exact ⟨_, envelope_halted hf⟩
  | false =>
    cases ho : s.foreign u ctx with
    | true => exact ⟨_, envelope_foreign hf ho⟩
    | false =>
      cases hc : check with
      | some c => exact ⟨_, envelope_check ⟨hf, ho⟩ rfl⟩
      | none =>
        obtain ⟨⟨t, q⟩, hr⟩ := h ⟨hf, ho⟩ hc
        exact ⟨_, envelope_run ⟨hf, ho⟩ rfl hr⟩

/-- Every command terminates with its effect, its fault or its refusal by a halted CORE (R121). -/
theorem exec_answers {s : State} (h : s.Inv) (i : Instr) : ∃ t, exec i s = .next t := by
  rw [exec_eq_envelope]
  refine envelope_answers fun _ hc => ?_
  exact runCommand_answers (h.bindOwner _ _) ((argOk_bindOwner ..).2 ((argCheck_eq_none_iff i s).1 hc))

/-- Settles O52: case by case on the host's next event (R170), each with the law of that step. -/
theorem everyStepAnswersANextState : Obligations.EveryStepAnswersANextState := by
  intro s h
  have hv : cfgValid s.cfg = true := h.1
  match hi : s.port.inbox with
  | [] => exact ⟨_, step_idle hv hi⟩
  | .reset :: rest => exact ⟨_, step_reset hv hi⟩
  | .command hw p :: rest =>
    cases hf : s.fault with
    | true => exact ⟨_, step_halted hv hi hf⟩
    | false =>
      cases hd : decode hw p with
      | error e => exact ⟨_, step_illegal hv hi hf hd⟩
      | ok i =>
        rw [step_command hv hi hf hd]
        exact exec_answers (h.setInbox rest) i

/-- Settles O48. -/
theorem invalidConfigurationIsRefused : Obligations.InvalidConfigurationIsRefused :=
  fun _ hv => step_invalid hv

end Sys2Proof.Machine

/-! PROOFS. Correct rounding (00_scope.md R9). `roundMag num den` is the magnitude of 53 significant bits nearest `num / den`, ties to
even; all that is said of a rounded result, the threshold of infinity included, follows from that. -/

namespace Sys2Proof.Machine

/-! ### The spacing of the binary64 numbers -/

theorem quantum_dvd_quantum {m n : Nat} (h : m ≤ n) : quantum m ∣ quantum n := by
  have hl : m.log2 ≤ n.log2 := by
    rw [Nat.log2_eq_log_two, Nat.log2_eq_log_two]
    exact Nat.log_mono_right h
  exact pow_dvd_pow 2 (by omega)

/-- The spacing at a significand of 53 bits, its first bit set. -/
theorem quantum_significand {c : Nat} (h1 : 4503599627370496 ≤ c) (h2 : c < 9007199254740992) (e : Nat) :
    quantum (c * 2 ^ e) = 2 ^ e := by
  obtain ⟨f, rfl⟩ := Nat.exists_eq_add_of_le h1
  rw [quantum, log2_significand (by omega), Nat.add_sub_cancel_left]

/-- A magnitude takes at most 53 bits in units of its own spacing. -/
theorem div_quantum_lt (n : Nat) : n / quantum n < 9007199254740992 := by
  rw [Nat.div_lt_iff_lt_mul (quantum_pos n)]
  calc n < 2 ^ (n.log2 + 1) := Nat.lt_log2_self
    _ ≤ 2 ^ (53 + (n.log2 - 52)) := Nat.pow_le_pow_right (by norm_num) (by omega)
    _ = 9007199254740992 * quantum n := by rw [pow_add]; rfl

/-- Where the spacing is more than 1, a magnitude takes all 53 bits. -/
theorem le_div_quantum {n : Nat} (h : quantum n ≠ 1) : 4503599627370496 ≤ n / quantum n := by
  have hn : 9007199254740992 ≤ n := not_lt.1 fun hn => h (quantum_of_lt hn)
  have hL : 52 ≤ n.log2 := (Nat.le_log2 (by omega)).2 (by norm_num; omega)
  rw [Nat.le_div_iff_mul_le (quantum_pos n)]
  calc 4503599627370496 * quantum n = 2 ^ (52 + (n.log2 - 52)) := by rw [pow_add]; rfl
    _ = 2 ^ n.log2 := by rw [Nat.add_sub_cancel' hL]
    _ ≤ n := Nat.log2_self_le (by omega)

/-! ### Rounding to an integer -/

/-- How far `x` is from `num / den`, in units of `1 / den`. -/
def gap (num den : Nat) (x : Int) : Nat := (x * den - num).natAbs

theorem gap_mul (num den q : Nat) (c : Int) : gap num den (c * q) = gap num (den * q) c := by
  unfold gap
  congr 1
  push_cast
  ring

/-- Rounding leaves a gap of at most a half, and one of exactly a half only where it broke a tie. -/
theorem gap_halfEven (num : Nat) {den : Nat} (hd : 0 < den) :
    2 * gap num den (halfEven num den) ≤ den ∧ (2 * gap num den (halfEven num den) = den → halfEven num den % 2 = 0) := by
  obtain ⟨n1, n2⟩ := halfEven_near num hd
  refine ⟨by unfold gap; omega, fun h => ?_⟩
  have hdm := Nat.div_add_mod' num den
  have hlt := Nat.mod_lt num hd
  unfold gap at h
  simp only [halfEven] at h ⊢
  generalize num / den = q at *
  generalize num % den = r at *
  split_ifs at h ⊢
  · omega
  · push_cast [add_mul] at h
    omega
  · omega

/-- No integer is nearer than the rounded one, and where another is as near, the rounded one is even. -/
theorem halfEven_nearest (num : Nat) {den : Nat} (hd : 0 < den) (c : Int) :
    gap num den (halfEven num den) ≤ gap num den c ∧
    (gap num den c = gap num den (halfEven num den) → c ≠ halfEven num den → halfEven num den % 2 = 0) := by
  obtain ⟨hle, heven⟩ := gap_halfEven num hd
  generalize halfEven num den = h at *
  by_cases hc : c = h
  · exact ⟨by rw [hc], fun _ hne => absurd hc hne⟩
  · have hsum : den ≤ gap num den c + gap num den h := by
      have h1 : den ≤ ((c - h) * den).natAbs := by
        rw [Int.natAbs_mul, Int.natAbs_natCast]
        exact Nat.le_mul_of_pos_left _ (Int.natAbs_pos.2 (sub_ne_zero.2 hc))
      rw [sub_mul] at h1
      unfold gap
      omega
    exact ⟨by omega, fun he _ => heven (by omega)⟩

/-! ### Rounding to 53 bits -/

theorem roundMag_eq (num den : Nat) :
    roundMag num den = halfEven num (den * quantum (num / den)) * quantum (num / den) := rfl

/-- The significand of the rounded magnitude has 53 bits, the first one set where the spacing is more than 1; or it is the next power
of two. -/
theorem halfEven_significand (num den : Nat) :
    halfEven num (den * quantum (num / den)) ≤ 9007199254740992 ∧
    (quantum (num / den) ≠ 1 → 4503599627370496 ≤ halfEven num (den * quantum (num / den))) := by
  have hle := div_quantum_lt (num / den)
  have hge := le_div_quantum (n := num / den)
  have hb : num / (den * quantum (num / den)) ≤ halfEven num (den * quantum (num / den)) ∧
      halfEven num (den * quantum (num / den)) ≤ num / (den * quantum (num / den)) + 1 := by
    simp only [halfEven]
    split_ifs <;> omega
  rw [← Nat.div_div_eq_div_mul] at hb
  exact ⟨by omega, fun h => by have := hge h; omega⟩

/-- The spacing at the rounded magnitude is the one it was rounded to, or, where rounding reached a power of two, twice that. -/
theorem roundMag_significand (num den : Nat) :
    (quantum (roundMag num den) = quantum (num / den) ∧ halfEven num (den * quantum (num / den)) < 9007199254740992) ∨
    (quantum (roundMag num den) = 2 * quantum (num / den) ∧ roundMag num den = 4503599627370496 * (2 * quantum (num / den))) := by
  obtain ⟨hle, hge⟩ := halfEven_significand num den
  rw [roundMag_eq]
  generalize halfEven num (den * quantum (num / den)) = h at *
  rcases Nat.lt_or_eq_of_le hle with hlt | rfl
  · refine .inl ⟨?_, hlt⟩
    by_cases hq : quantum (num / den) = 1
    · rw [hq, Nat.mul_one, quantum_of_lt hlt]
    · exact quantum_significand (hge hq) hlt _
  · have he : 9007199254740992 * quantum (num / den) = 4503599627370496 * (2 * quantum (num / den)) := by ring
    have h2 : 2 * quantum (num / den) = 2 ^ ((num / den).log2 - 52 + 1) := (pow_succ' ..).symm
    exact .inr ⟨by rw [he, h2, quantum_significand (by norm_num) (by norm_num)], he⟩

/-- The rounded magnitude is one of 53 bits. -/
theorem quantum_dvd_roundMag (num den : Nat) : quantum (roundMag num den) ∣ roundMag num den := by
  rcases roundMag_significand num den with ⟨hq, -⟩ | ⟨hq, hr⟩
  · rw [hq]
    exact Dvd.intro_left _ rfl
  · rw [hq, hr]
    exact Dvd.intro_left _ rfl

/-- An even significand is even in units of the rounded magnitude's own spacing. -/
theorem roundMag_even {num den : Nat} (h : halfEven num (den * quantum (num / den)) % 2 = 0) :
    roundMag num den / quantum (roundMag num den) % 2 = 0 := by
  have hp := quantum_pos (num / den)
  rcases roundMag_significand num den with ⟨hq, -⟩ | ⟨hq, hr⟩
  · rw [hq, roundMag_eq, Nat.mul_div_cancel _ hp, h]
  · rw [hq, hr, Nat.mul_div_cancel _ (by omega)]

/-- Among the multiples of the spacing at `num / den` none is nearer than the rounded magnitude. -/
theorem roundMag_nearest_multiple (num : Nat) {den : Nat} (hd : 0 < den) {x : Int} (hx : (quantum (num / den) : Int) ∣ x) :
    gap num den (roundMag num den) ≤ gap num den x ∧
    (gap num den x = gap num den (roundMag num den) → x ≠ roundMag num den →
      roundMag num den / quantum (roundMag num den) % 2 = 0) := by
  obtain ⟨c, rfl⟩ := hx
  obtain ⟨hle, heven⟩ := halfEven_nearest num (den := den * quantum (num / den)) (Nat.mul_pos hd (quantum_pos _)) c
  have hr : ((roundMag num den : Nat) : Int) = (halfEven num (den * quantum (num / den)) : Int) * quantum (num / den) := by
    rw [roundMag_eq, Nat.cast_mul]
  rw [Int.mul_comm, hr, gap_mul, gap_mul]
  exact ⟨hle, fun he hne => roundMag_even (heven he fun hc => hne (by rw [hc]))⟩

/-- Correct rounding: no number of 53 bits is nearer than the rounded magnitude, and where another is as near, the rounded one is even.
The numbers that are no multiple of the spacing at `num / den` lie below `2^52` such spacings, which is nearer than they are. -/
theorem roundMag_nearest (num : Nat) {den : Nat} (hd : 0 < den) {x : Int} (hx : (quantum x.natAbs : Int) ∣ x) :
    gap num den (roundMag num den) ≤ gap num den x ∧
    (gap num den x = gap num den (roundMag num den) → x ≠ roundMag num den →
      roundMag num den / quantum (roundMag num den) % 2 = 0) := by
  by_cases hq : quantum (num / den) = 1
  · exact roundMag_nearest_multiple num hd (by rw [hq]; exact one_dvd x)
  have hF : quantum (4503599627370496 * quantum (num / den)) = quantum (num / den) :=
    quantum_significand (by norm_num) (by norm_num) _
  rcases Nat.lt_or_ge x.natAbs (4503599627370496 * quantum (num / den)) with hlt | hge
  · have hFle : 4503599627370496 * quantum (num / den) * den ≤ num := by
      have h1 := (Nat.le_div_iff_mul_le (quantum_pos _)).1 (le_div_quantum hq)
      exact (Nat.le_div_iff_mul_le hd).1 h1
    obtain ⟨hrF, -⟩ := roundMag_nearest_multiple num hd (x := ((4503599627370496 * quantum (num / den) : Nat) : Int))
      (by rw [Nat.cast_mul]; exact Dvd.intro_left _ rfl)
    generalize 4503599627370496 * quantum (num / den) = F at *
    have hFx : gap num den F < gap num den x := by
      have hxF : x * den < F * den := Int.mul_lt_mul_of_pos_right (by omega) (by omega)
      unfold gap
      zify at hFle
      omega
    exact ⟨by omega, fun he => by omega⟩
  · refine roundMag_nearest_multiple num hd (dvd_trans ?_ hx)
    rw [Int.natCast_dvd_natCast, ← hF]
    exact quantum_dvd_quantum hge

/-! ### The threshold of infinity -/

/-- Half the spacing of the greatest finite magnitudes. -/
@[irreducible] def halfStep : Nat := 2 ^ 2044

theorem halfStep_eq : halfStep = 2 ^ 2044 := by delta halfStep; with_reducible rfl

theorem halfStep_pos : 0 < halfStep := by rw [halfStep_eq]; positivity

theorem pow_mul_halfStep (e : Nat) : 2 ^ e * halfStep = 2 ^ (e + 2044) := by rw [halfStep_eq, pow_add]

theorem infMag_eq_halfStep : infMag = 18014398509481984 * halfStep := by
  rw [show 18014398509481984 = 2 ^ 54 by norm_num, pow_mul_halfStep, infMag_eq]

theorem gap_natCast (num den m : Nat) : gap num den m = (((m * den : Nat) : Int) - num).natAbs := by
  rw [gap, Nat.cast_mul]

/-- The spacing at a significand of 53 bits whose unit is `2^e` half steps. -/
theorem quantum_halfStep {c : Nat} (h1 : 4503599627370496 ≤ c) (h2 : c < 9007199254740992) (e : Nat) :
    quantum (c * (2 ^ e * halfStep)) = 2 ^ e * halfStep := by
  rw [pow_mul_halfStep]
  exact quantum_significand h1 h2 _

/-- A magnitude of 53 bits below `infMag` is at most the greatest finite one. -/
theorem le_of_lt_infMag {m : Nat} (hd : quantum m ∣ m) (h : m < infMag) : m ≤ 9007199254740991 * (2 * halfStep) := by
  by_cases h0 : m = 0
  · omega
  have hq : quantum m ≤ 2 * halfStep := by
    have hl := lt_infMag_log2 h0 h
    have he : m.log2 - 52 ≤ 1 + 2044 := by omega
    have h2 : 2 * halfStep = 2 ^ (1 + 2044) := pow_mul_halfStep 1
    rw [h2, quantum]
    generalize 1 + 2044 = K at *
    exact Nat.pow_le_pow_right (by norm_num) he
  have hc := div_quantum_lt m
  calc m = m / quantum m * quantum m := (Nat.div_mul_cancel hd).symm
    _ ≤ 9007199254740991 * (2 * halfStep) := Nat.mul_le_mul (by omega) hq

/-- The rounded magnitude is infinite exactly from half a step below `2^1024` on: there the two neighbours, the greatest finite one and
`infMag`, are equally near, and `infMag` is the even one. -/
theorem infMag_le_roundMag_iff (num : Nat) {den : Nat} (hd : 0 < den) :
    infMag ≤ roundMag num den ↔ 18014398509481983 * halfStep * den ≤ num := by
  have hMq : quantum (9007199254740991 * (2 * halfStep)) = 2 * halfStep :=
    quantum_halfStep (by norm_num) (by norm_num) 1
  have hIq : quantum (4503599627370496 * (4 * halfStep)) = 4 * halfStep :=
    quantum_halfStep (by norm_num) (by norm_num) 2
  obtain ⟨hM, -⟩ := roundMag_nearest num hd (x := (9007199254740991 * (2 * halfStep) : Nat))
    (Int.natCast_dvd_natCast.2 (by rw [Int.natAbs_natCast, hMq]; exact Dvd.intro_left _ rfl))
  obtain ⟨hI, hIeven⟩ := roundMag_nearest num hd (x := (4503599627370496 * (4 * halfStep) : Nat))
    (Int.natCast_dvd_natCast.2 (by rw [Int.natAbs_natCast, hIq]; exact Dvd.intro_left _ rfl))
  have hrM := le_of_lt_infMag (quantum_dvd_roundMag num den)
  generalize roundMag num den = r at *
  have hP : 0 < halfStep * den := Nat.mul_pos halfStep_pos hd
  have hPI : (4503599627370496 * (4 * halfStep)) * den = 18014398509481984 * (halfStep * den) := by ring
  have hPM : 9007199254740991 * (2 * halfStep) * den = 18014398509481982 * (halfStep * den) := by ring
  rw [infMag_eq_halfStep] at hrM ⊢
  simp only [gap_natCast, hPI, hPM] at hM hI hIeven
  rw [Nat.mul_assoc _ halfStep den]
  constructor
  · intro hle
    have hR : 18014398509481984 * (halfStep * den) ≤ r * den := by
      rw [← Nat.mul_assoc]
      exact Nat.mul_le_mul_right _ hle
    omega
  · intro hle
    by_contra hlt
    have hR := Nat.mul_le_mul_right den (hrM (not_le.1 hlt))
    rw [hPM] at hR
    have hodd : r = 9007199254740991 * (2 * halfStep) := Nat.eq_of_mul_eq_mul_right hd (by rw [hPM]; omega)
    have heven := hIeven (by omega) (by omega)
    rw [hodd, hMq, Nat.mul_div_cancel _ (by omega)] at heven
    omega

/-! ### Packing -/

/-- The last bit of a packed magnitude is that of its significand. -/
theorem getLsbD_packMag {m : Nat} (neg : Bool) (h : m < infMag) (he : m / quantum m % 2 = 0) :
    (packMag neg m).getLsbD 0 = false := by
  have hb : packBody m % 2 = 0 := by
    by_cases hs : m < 4503599627370496
    · rw [quantum_of_lt (by omega), Nat.div_one] at he
      rw [packBody, if_pos hs, he]
    · rw [quantum] at he
      rw [packBody, if_neg hs, if_neg (by omega)]
      omega
  rw [packMag, BitVec.getLsbD_ofNat, Nat.testBit_zero]
  cases neg <;> simp <;> omega

/-- A magnitude from `infMag` on is packed to the infinity of its sign. -/
theorem packMag_infinite (neg : Bool) {m : Nat} (h : infMag ≤ m) :
    signBit (packMag neg m) = neg ∧ isInf (packMag neg m) = true ∧ isFinite (packMag neg m) = false ∧
      isNaN (packMag neg m) = false := by
  have hb : packBody m = 9218868437227405312 := by
    rw [packBody, if_neg (by have := pow52_le_infMag; omega), if_pos h]
  obtain ⟨hs, he, hf⟩ := fields_ofNat neg (body := packBody m) (by rw [hb]; norm_num)
  rw [← packMag.eq_1] at hs he hf
  rw [hb] at he hf
  norm_num at he hf
  simp [hs, isInf, isFinite, isNaN, he, hf]

/-! ### A packed rounded magnitude -/

/-- `m` with its sign flipped where `neg` says so; as a magnitude `m`, the number with this sign. -/
def withSign (neg : Bool) (m : Int) : Int := if neg then -m else m

theorem natAbs_sub_withSign (neg : Bool) (num den : Nat) (x : Int) :
    (x * den - withSign neg num).natAbs = gap num den (withSign neg x) := by
  cases neg
  · rfl
  · simp only [withSign, gap, if_true]
    rw [neg_mul]
    omega

theorem val_packMag (neg : Bool) {m : Nat} (h : Representable m) : val (packMag neg m) = withSign neg m := by
  obtain ⟨hs, hm, -⟩ := packMag_fields neg h
  rw [val, hs, hm, withSign]

theorem withSign_withSign (neg : Bool) (x : Int) : withSign neg (withSign neg x) = x := by
  cases neg <;> simp [withSign]

theorem quantum_dvd_withSign_val {w : Item} (neg : Bool) (h : isFinite w = true) :
    (quantum (withSign neg (val w)).natAbs : Int) ∣ withSign neg (val w) := by
  have hn : (withSign neg (val w)).natAbs = mag w := by
    rw [← natAbs_val w]
    cases neg <;> simp [withSign]
  rw [hn, ← Int.dvd_natAbs, hn, Int.natCast_dvd_natCast]
  exact (representable_mag h).1

/-- Correct rounding of the number `z / den` to `r`, the sign of a zero given by `neg` (R9): the statement for every operation at once. -/
theorem correctlyRounded_packMag {neg : Bool} {num den : Nat} {r : Item} {z : Int} (hd : 0 < den)
    (hr : r = packMag neg (roundMag num den)) (hz : z = withSign neg num) :
    isNaN r = false ∧
    (isFinite r = true → ∀ w, isFinite w = true →
      (val r * den - z).natAbs ≤ (val w * den - z).natAbs ∧
      ((val w * den - z).natAbs = (val r * den - z).natAbs → val w ≠ val r → r.getLsbD 0 = false)) ∧
    (isInf r = true ↔ 18014398509481983 * halfStep * den ≤ num) ∧
    signBit r = neg := by
  subst hr hz
  rw [← infMag_le_roundMag_iff num hd]
  rcases Nat.lt_or_ge (roundMag num den) infMag with hlt | hge
  · have hrep : Representable (roundMag num den) := ⟨quantum_dvd_roundMag num den, hlt⟩
    obtain ⟨hs, -, hf⟩ := packMag_fields neg hrep
    refine ⟨isNaN_false_of_finite hf, fun _ w hw => ?_, ?_, hs⟩
    · obtain ⟨hle, htie⟩ := roundMag_nearest num hd (quantum_dvd_withSign_val neg hw)
      rw [val_packMag neg hrep, natAbs_sub_withSign, natAbs_sub_withSign, withSign_withSign]
      refine ⟨hle, fun he hne => getLsbD_packMag neg hlt (htie he fun hc => hne ?_)⟩
      rw [← hc, withSign_withSign]
    · simp [isInf_false_of_finite hf, hlt]
  · obtain ⟨hs, hi, hf, hn⟩ := packMag_infinite neg hge
    simp [hs, hi, hf, hn, hge]

/-! ### The operations -/

/-- A sum of finite samples is the exact sum rounded once; a zero sum has the sign both operands share. -/
theorem fadd_of_finite (k : Nat) {a b : Item} (ha : isFinite a = true) (hb : isFinite b = true) :
    fadd k a b = packMag (if val a + val b = 0 then signBit a && signBit b else decide (val a + val b < 0))
      (roundMag (val a + val b).natAbs 1) := by
  simp only [fadd, isNaN_false_of_finite ha, isNaN_false_of_finite hb, isInf_false_of_finite ha, isInf_false_of_finite hb,
    Bool.or_self, Bool.false_eq_true, if_false]
  split
  · next hz =>
    rw [hz]
    cases signBit a && signBit b <;> decide
  · rfl

/-- A product of finite samples is the exact product rounded once. -/
theorem fmul_of_finite (k : Nat) {a b : Item} (ha : isFinite a = true) (hb : isFinite b = true) :
    fmul k a b = packMag (signBit a != signBit b) (roundMag (mag a * mag b) oneMag) := by
  simp [fmul, isNaN_false_of_finite ha, isNaN_false_of_finite hb, isInf_false_of_finite ha, isInf_false_of_finite hb]

theorem withSign_natAbs (z : Int) (zeroSign : Bool) : withSign (if z = 0 then zeroSign else decide (z < 0)) z.natAbs = z := by
  unfold withSign
  split_ifs with h0 hs hs
  · omega
  · omega
  · have := of_decide_eq_true hs
    omega
  · have := of_decide_eq_false (Bool.not_eq_true _ ▸ hs)
    omega

theorem val_mul_val (a b : Item) : val a * val b = withSign (signBit a != signBit b) (mag a * mag b : Nat) := by
  rw [val, val, withSign]
  cases signBit a <;> cases signBit b <;> simp

theorem natAbs_val_mul_val (a b : Item) : (val a * val b).natAbs = mag a * mag b := by
  rw [Int.natAbs_mul, natAbs_val, natAbs_val]

/-- The rounding threshold of infinity, `2^1024 - 2^970` in units of `2^-1074`, in half steps. -/
theorem threshold_eq : (2 ^ 54 - 1) * 2 ^ 2044 = 18014398509481983 * halfStep := by
  rw [halfStep_eq, show 2 ^ 54 - 1 = 18014398509481983 by norm_num]

/-- Settles O42: the sum is the exact one rounded once, over the denominator 1. -/
theorem additionIsCorrectlyRounded : Obligations.AdditionIsCorrectlyRounded := by
  intro k a b ha hb z r
  obtain ⟨hnan, hnear, hinf, hsign⟩ :=
    correctlyRounded_packMag one_pos (fadd_of_finite k ha hb) (withSign_natAbs z (signBit a && signBit b)).symm
  simp only [Nat.cast_one, mul_one] at hnear hinf
  rw [threshold_eq]
  exact ⟨hnan, hnear, hinf, fun hz => by rw [hsign, if_neg hz], fun hz => by rw [hsign, if_pos hz]⟩

/-- Settles O43: the product is the exact one rounded once, over the denominator `oneMag`. -/
theorem multiplicationIsCorrectlyRounded : Obligations.MultiplicationIsCorrectlyRounded := by
  intro k a b ha hb z r
  rw [threshold_eq, natAbs_val_mul_val]
  exact correctlyRounded_packMag oneMag_pos (fmul_of_finite k ha hb) (val_mul_val a b)

end Sys2Proof.Machine

/-! PROOFS. The window and its ages (20_memory.md R52, R53): translation is the Euclidean remainder, and each single write makes every
item one older, so that after a list of them the newest items are that list, read from its end. -/

namespace Sys2Proof.Machine

/-- Settles O18: the remainder that `phys` answers lies in the window, and the quotient is the multiple of `LSIZE` (R52). -/
theorem translationStaysInTheWindow : Obligations.TranslationStaysInTheWindow := by
  intro cap S k h
  have ⟨hpos, hcap, _⟩ := h
  have hp := windowMod_lt ((S.wc : Int) + k) hpos
  have hnonneg : 0 ≤ ((S.wc : Int) + k) % (S.lsize : Int) := Int.emod_nonneg _ (by omega)
  refine ⟨_, phys_eq h k, hp, hp.trans_le hcap, ((S.wc : Int) + k) / S.lsize, ?_⟩
  rw [Int.toNat_of_nonneg hnonneg, Int.ediv_mul_add_emod]

/-! ### Ages (R53) -/

/-- The item of age `a`: the one `a + 1` slots before the cursor, cyclically in the window (R53). -/
def Store.itemOfAge (S : Store) (a : Nat) : Item := S.items.read (((S.wc : Int) + (-1 - a)) % (S.lsize : Int)).toNat

theorem stReadAt_neg_age {cap : Nat} {S : Store} (h : Store.Ok cap S) (a : Nat) :
    stReadAt cap S (-1 - (a : Int)) = .ok (S.itemOfAge a) :=
  stReadAt_eq h _

/-- One turn of the window further on stands the same item. -/
theorem stReadAt_lsize_sub_age {cap : Nat} {S : Store} (h : Store.Ok cap S) (a : Nat) :
    stReadAt cap S ((S.lsize : Int) - 1 - a) = .ok (S.itemOfAge a) := by
  rw [stReadAt_eq h, Store.itemOfAge,
    show (S.wc : Int) + ((S.lsize : Int) - 1 - a) = (S.wc : Int) + (-1 - a) + S.lsize by ring, Int.add_emod_right]

/-- An age below `LSIZE - 1` is not at the cursor, where the next write goes. -/
theorem age_index_ne_wc {cap : Nat} {S : Store} (h : Store.Ok cap S) {a : Nat} (ha : a + 1 < S.lsize) :
    (((S.wc : Int) + (-1 - a)) % (S.lsize : Int)).toNat ≠ S.wc := by
  obtain ⟨-, -, hwc, -, -⟩ := h
  rcases Nat.lt_or_ge a S.wc with hlt | hge
  · rw [Int.emod_eq_of_lt (by omega) (by omega)]
    omega
  · rw [← Int.add_emod_right, Int.emod_eq_of_lt (by omega) (by omega)]
    omega

/-- A single write makes its item the newest and every other item one older; the oldest one is overwritten (R100, R53). -/
theorem stWrite_ages {cap : Nat} {S : Store} (h : Store.Ok cap S) (v : Item) :
    ∃ S₁, stWrite cap S v = .ok S₁ ∧ Store.Ok cap S₁ ∧ S₁.lsize = S.lsize ∧ S₁.itemOfAge 0 = v ∧
      ∀ a, a + 1 < S.lsize → S₁.itemOfAge (a + 1) = S.itemOfAge a := by
  have ⟨_, _, hlt, hitems, _⟩ := h
  have hwc : (S.wc : Int) % S.lsize = S.wc := Int.emod_eq_of_lt (by omega) (by omega)
  refine ⟨_, stWrite_eq h v, stWrite_ok h v, rfl, ?_, fun a ha => ?_⟩ <;>
    simp only [Store.itemOfAge, Int.natCast_emod, Int.emod_add_emod]
  · rw [show ((S.wc + 1 : Nat) : Int) + (-1 - (0 : Nat)) = S.wc by push_cast; ring, hwc, Int.toNat_natCast,
      Memory.read_write_same _ _ hitems]
  · rw [show ((S.wc + 1 : Nat) : Int) + (-1 - (a + 1 : Nat)) = (S.wc : Int) + (-1 - a) by push_cast; ring,
      Memory.read_write_other _ _ (age_index_ne_wc h ha)]

/-- After a list of single writes the ages run through the list from its end, and then through the items that stood before (R53). -/
theorem writeEach_ages {cap : Nat} (vs : List Item) :
    ∀ {S : Store}, Store.Ok cap S → ∃ S', writeEach cap S vs = .ok S' ∧ Store.Ok cap S' ∧ S'.lsize = S.lsize ∧
      ∀ a, a < S.lsize → S'.itemOfAge a = vs.reverse[a]?.getD (S.itemOfAge (a - vs.length)) := by
  induction vs with
  | nil => exact fun {S} h => ⟨S, rfl, h, rfl, fun _ _ => rfl⟩
  | cons v vs ih =>
    intro S h
    obtain ⟨S₁, hwrite, hok₁, hl₁, hnew, hold⟩ := stWrite_ages h v
    obtain ⟨S', heach, hok', hl', hages⟩ := ih hok₁
    rw [hl₁] at hl' hages
    refine ⟨S', by rw [writeEach, hwrite]; exact heach, hok', hl', fun a ha => ?_⟩
    rw [hages a ha, List.reverse_cons]
    rcases Nat.lt_trichotomy a vs.length with hlt | rfl | hgt
    · rw [List.getElem?_append_left (by simpa using hlt), List.getElem?_eq_getElem (by simpa using hlt)]
      rfl
    · simp [hnew]
    · obtain ⟨b, rfl⟩ := Nat.exists_eq_add_of_lt hgt
      have hb : vs.length + b + 1 - (v :: vs).length = b := by rw [List.length_cons]; omega
      rw [hb]
      simp [Nat.add_assoc, hold b (by omega)]

/-- Settles O29: both offsets read the item of age `a`, which for an age below the number of writes is one of the items written. -/
theorem offsetsNameAges : Obligations.OffsetsNameAges := by
  intro cap S vs h
  obtain ⟨S', heach, hok', hl', hages⟩ := writeEach_ages vs h
  refine ⟨S', heach, hl', fun a ha hal => ?_⟩
  have hitem : S'.itemOfAge a = vs[vs.length - 1 - a] := by
    rw [hages a hal, List.getElem?_eq_getElem (by simpa using ha), List.getElem_reverse]
    rfl
  rw [← hl', stReadAt_neg_age hok', stReadAt_lsize_sub_age hok', hitem]
  exact ⟨rfl, rfl⟩

end Sys2Proof.Machine

/-! PROOFS. Noninterference (20_memory.md R59; 60_exceptions.md R170, R176): every update a command makes keeps two states `SameFor` its
unit, and every run reads nothing else, so that the envelope answers alike in both. -/

namespace Sys2Proof.Machine

section SameFor

variable {u : UnitId} {s s' : State}

/-! ### What `SameFor` states share -/

theorem SameFor.cfg_eq (h : SameFor u s s') : s.cfg = s'.cfg := h.1

theorem SameFor.fault_eq (h : SameFor u s s') : s.fault = s'.fault := h.2.1

theorem SameFor.fcode_eq (h : SameFor u s s') : s.fcode = s'.fcode := h.2.2.1

theorem SameFor.rs_eq (h : SameFor .rs s s') : s.rs = s'.rs := h.2.2.2

theorem SameFor.dl_eq (h : SameFor .dl s s') : s.dl = s'.dl := h.2.2.2.1

theorem SameFor.ap_eq (h : SameFor .ap s s') : s.ap = s'.ap := h.2.2.2.1

theorem SameFor.dlDraws_eq (h : SameFor .dl s s') : s.nanDraws = s'.nanDraws := h.2.2.2.2

theorem SameFor.apDraws_eq (h : SameFor .ap s s') : s.nanDraws = s'.nanDraws := h.2.2.2.2

theorem SameFor.owner_eq (h : SameFor u s s') : s.owner u = s'.owner u := by
  cases u with
  | rs => exact congrArg RsUnit.owner h.rs_eq
  | dl => exact congrArg DlUnit.owner h.dl_eq
  | ap => exact congrArg ApUnit.owner h.ap_eq

/-- The same contexts are let in (R170 steps 1 and 3). -/
theorem SameFor.foreign_eq (h : SameFor u s s') (ctx : Ctx) : s.foreign u ctx = s'.foreign u ctx := by
  rw [State.foreign, State.foreign, h.owner_eq]

theorem SameFor.accepts (h : SameFor u s s') {ctx : Ctx} (ha : s.Accepts u ctx) : s'.Accepts u ctx :=
  ⟨h.fault_eq ▸ ha.1, h.foreign_eq ctx ▸ ha.2⟩

/-! ### Updates keep states `SameFor` a unit -/

theorem SameFor.setRs (h : SameFor .rs s s') (x : RsUnit) : SameFor .rs (s.setRs x) (s'.setRs x) :=
  ⟨h.cfg_eq, h.fault_eq, h.fcode_eq, rfl⟩

theorem SameFor.setDl (h : SameFor .dl s s') (x : DlUnit) : SameFor .dl (s.setDl x) (s'.setDl x) :=
  ⟨h.cfg_eq, h.fault_eq, h.fcode_eq, rfl, h.dlDraws_eq⟩

theorem SameFor.setAp (h : SameFor .ap s s') (x : ApUnit) : SameFor .ap (s.setAp x) (s'.setAp x) :=
  ⟨h.cfg_eq, h.fault_eq, h.fcode_eq, rfl, h.apDraws_eq⟩

theorem SameFor.setDraws (h : SameFor u s s') (k : Nat) : SameFor u (s.setDraws k) (s'.setDraws k) := by
  cases u with
  | rs => exact h
  | dl => exact ⟨h.cfg_eq, h.fault_eq, h.fcode_eq, h.dl_eq, rfl⟩
  | ap => exact ⟨h.cfg_eq, h.fault_eq, h.fcode_eq, h.ap_eq, rfl⟩

theorem SameFor.setOwner (h : SameFor u s s') (o : Owner) : SameFor u (s.setOwner u o) (s'.setOwner u o) := by
  cases u with
  | rs => rw [State.setOwner, State.setOwner, ← h.rs_eq]; exact h.setRs _
  | dl => rw [State.setOwner, State.setOwner, ← h.dl_eq]; exact h.setDl _
  | ap => rw [State.setOwner, State.setOwner, ← h.ap_eq]; exact h.setAp _

theorem SameFor.respond (h : SameFor u s s') (r : Response) : SameFor u (s.respond r) (s'.respond r) := by
  cases u <;> exact h

theorem SameFor.raiseFault (h : SameFor u s s') (c : FaultCode) : SameFor u (raiseFault c s) (raiseFault c s') := by
  obtain ⟨hcfg, -, -, hunit⟩ := h
  cases u <;> exact ⟨hcfg, rfl, rfl, hunit⟩

theorem SameFor.answerHalted (h : SameFor u s s') : SameFor u (answerHalted s) (answerHalted s') := by
  cases u <;> exact h

/-! ### Runs -/

/-- Where the first run answers, the second answers the same items and a state that is `SameFor` the unit. -/
def SameRun (u : UnitId) (r r' : Except Fault (State × List Item)) : Prop :=
  ∀ t q, r = .ok (t, q) → ∃ t', r' = .ok (t', q) ∧ SameFor u t t'

theorem sameRun_ok (h : SameFor u s s') (q : List Item) : SameRun u (.ok (s, q)) (.ok (s', q)) := by
  rintro t q' ⟨⟩
  exact ⟨s', rfl, h⟩

theorem sameRun_bind {α : Type} {x : Except Fault α} {f f' : α → Except Fault (State × List Item)}
    (h : ∀ a, SameRun u (f a) (f' a)) : SameRun u (x >>= f) (x >>= f') := by
  cases x with
  | error e => exact fun _ _ he => nomatch he
  | ok a => exact h a

theorem sameRun_rsWrite (f : Nat → Store → Except Fault Store) (h : SameFor .rs s s') :
    SameRun .rs (runRsWrite f s) (runRsWrite f s') := by
  rw [runRsWrite, runRsWrite, ← h.cfg_eq, ← h.rs_eq]
  exact sameRun_bind fun S => sameRun_ok (h.setRs _) _

theorem sameRun_rsRead (f : Nat → Store → Except Fault (List Item)) (h : SameFor .rs s s') :
    SameRun .rs (runRsRead f s) (runRsRead f s') := by
  rw [runRsRead, runRsRead, ← h.cfg_eq, ← h.rs_eq]
  exact sameRun_bind fun q => sameRun_ok h q

theorem sameRun_setDelay (d : Item) (h : SameFor .dl s s') : SameRun .dl (runSetDelay d s) (runSetDelay d s') := by
  rw [runSetDelay, runSetDelay, ← h.cfg_eq, ← h.dl_eq, ← h.dlDraws_eq]
  exact sameRun_ok (h.setDl _) _

theorem sameRun_dlProcess (x : Item) (h : SameFor .dl s s') : SameRun .dl (runDlProcess x s) (runDlProcess x s') := by
  rw [runDlProcess, runDlProcess, ← h.cfg_eq, ← h.dl_eq, ← h.dlDraws_eq]
  exact sameRun_bind fun S => sameRun_bind fun a => sameRun_bind fun b => sameRun_bind fun c => sameRun_bind fun d =>
    sameRun_ok ((h.setDl _).setDraws _) _

theorem sameRun_dlClear (h : SameFor .dl s s') : SameRun .dl (runDlClear s) (runDlClear s') := by
  rw [runDlClear, runDlClear, ← h.dl_eq]
  exact sameRun_ok (h.setDl _) _

theorem sameRun_setLen (d : Nat) (h : SameFor .ap s s') : SameRun .ap (runSetLen d s) (runSetLen d s') := by
  rw [runSetLen, runSetLen, ← h.ap_eq]
  exact sameRun_bind fun ff => sameRun_bind fun fb => sameRun_ok (h.setAp _) _

theorem sameRun_setGain (g : Item) (h : SameFor .ap s s') : SameRun .ap (runSetGain g s) (runSetGain g s') := by
  rw [runSetGain, runSetGain, ← h.ap_eq]
  exact sameRun_ok (h.setAp _) _

theorem sameRun_apProcess (x : Item) (h : SameFor .ap s s') : SameRun .ap (runApProcess x s) (runApProcess x s') := by
  rw [runApProcess, runApProcess, ← h.cfg_eq, ← h.ap_eq, ← h.apDraws_eq]
  exact sameRun_bind fun x1 => sameRun_bind fun y1 => sameRun_bind fun ff => sameRun_bind fun fb =>
    sameRun_ok ((h.setAp _).setDraws _) _

theorem sameRun_apClear (h : SameFor .ap s s') : SameRun .ap (runApClear s) (runApClear s') := by
  rw [runApClear, runApClear, ← h.ap_eq]
  exact sameRun_ok (h.setAp _) _

/-- Every command's run. -/
theorem sameRun_runCommand {i : Instr} (h : SameFor i.unit s s') : SameRun i.unit (runCommand i s) (runCommand i s') := by
  unfold runCommand
  cases i with
  | rsWrite | rsWriteb | rsResize | rsClear => exact sameRun_rsWrite _ h
  | rsReadh | rsRead | rsReadt | rsReadat | rsItemat => exact sameRun_rsRead _ h
  | dlSetdelay c d => exact sameRun_setDelay d h
  | dlProcess c x => exact sameRun_dlProcess x h
  | dlClear c => exact sameRun_dlClear h
  | apSetlen c d => exact sameRun_setLen d h
  | apSetgain c g => exact sameRun_setGain g h
  | apProcess c x => exact sameRun_apProcess x h
  | apClear c => exact sameRun_apClear h

/-! ### Commands -/

/-- An argument check looks at the unit's registers and the configuration only (R172). -/
theorem SameFor.argCheck_eq {i : Instr} (h : SameFor i.unit s s') : argCheck i s = argCheck i s' := by
  have hcfg := h.cfg_eq
  cases i with
  | rsWriteb | rsReadh | rsRead | rsReadt =>
    have hrs := SameFor.rs_eq h
    simp only [argCheck, checkBlockLen, hrs]
  | rsResize => simp only [argCheck, checkResize, hcfg]
  | rsItemat => simp only [argCheck, checkIndex, hcfg]
  | apSetlen => simp only [argCheck, checkLen, hcfg]
  | rsWrite | rsReadat | rsClear | dlSetdelay | dlProcess | dlClear | apSetgain | apProcess | apClear => rfl

end SameFor

/-- Settles O56: whichever step of R170 ends the command in the first state ends it in the second, with the same response. -/
theorem commandSeesOnlyItsUnit : Obligations.CommandSeesOnlyItsUnit := by
  intro s s' t i h he
  rw [exec_eq_envelope] at he
  rcases envelope_next_cases he with ⟨hf, rfl⟩ | ⟨hf, ho, rfl⟩ | ⟨ha, c, hc, rfl⟩ | ⟨ha, hc, t₁, q, hr, rfl⟩
  · refine ⟨_, by rw [exec_eq_envelope, envelope_halted (h.fault_eq ▸ hf)], h.answerHalted, ?_⟩
    simp [h.fcode_eq]
  · exact ⟨_, by rw [exec_eq_envelope, envelope_foreign (h.fault_eq ▸ hf) (h.foreign_eq _ ▸ ho)], h.raiseFault .owner, rfl⟩
  · exact ⟨_, exec_check_faults (h.accepts ha) (h.argCheck_eq ▸ hc), h.raiseFault c, rfl⟩
  · rw [bindOwner_of_accepts ha] at hr
    obtain ⟨t₁', hr', ht⟩ := sameRun_runCommand (h.setOwner _) t₁ q hr
    exact ⟨_, exec_accepted (h.accepts ha) (h.argCheck_eq ▸ hc) hr', ht.respond _, rfl⟩

end Sys2Proof.Machine

/-! PROOFS. Strict decoding (30_encoding.md R71 to R78): when operands are legal for an opcode's format, which words the command read
then has, and the header's four fields against the rows of the opcode table. -/

namespace Sys2Proof

/-! ### Legal operands of a format (R72) -/

/-- How many payload words a format asks for, given the header's `arg` (R72). -/
def Format.payloadLength (f : Format) (a : Arg) : Nat :=
  match f with
  | .h0 => 0
  | .ha => 0
  | .hp => 1
  | .hb => a.toNat

/-- Neither condition 3 nor condition 4 of R78 holds. -/
def Format.Legal (f : Format) (a : Arg) (p : List Word) : Prop :=
  (f = .h0 ∨ f = .hp → a = 0#32) ∧ p.length = f.payloadLength a

@[simp] theorem Format.legal_h0 {a : Arg} {p : List Word} : Format.h0.Legal a p ↔ a = 0#32 ∧ p = [] := by
  simp [Format.Legal, Format.payloadLength]

@[simp] theorem Format.legal_ha {a : Arg} {p : List Word} : Format.ha.Legal a p ↔ p = [] := by
  simp [Format.Legal, Format.payloadLength]

@[simp] theorem Format.legal_hp {a : Arg} {p : List Word} : Format.hp.Legal a p ↔ a = 0#32 ∧ ∃ v, p = [v] := by
  simp [Format.Legal, Format.payloadLength, List.length_eq_one_iff]

@[simp] theorem Format.legal_hb {a : Arg} {p : List Word} : Format.hb.Legal a p ↔ p.length = a.toNat := by
  simp [Format.Legal, Format.payloadLength]

theorem Format.not_legal_iff {f : Format} {a : Arg} {p : List Word} :
    ¬ f.Legal a p ↔ (f = .h0 ∨ f = .hp) ∧ a ≠ 0#32 ∨ p.length ≠ f.payloadLength a := by
  rw [Format.Legal, not_and_or, Classical.not_imp]

/-- An `arg` that is zero where the format demands it has a legal payload. -/
theorem Format.exists_legal_iff {f : Format} {a : Arg} : (∃ p, f.Legal a p) ↔ (f = .h0 ∨ f = .hp → a = 0#32) :=
  ⟨fun ⟨_, h, _⟩ => h, fun h => ⟨List.replicate (f.payloadLength a) 0#64, h, List.length_replicate⟩⟩

theorem decodeH0_eq_ok {a : Arg} {p : List Word} {i j : Instr} : decodeH0 a p i = .ok j ↔ (a = 0#32 ∧ p = []) ∧ i = j := by
  by_cases ha : a = 0#32
  · cases p <;> simp [decodeH0, ha]
  · simp [decodeH0, ha]

theorem decodeHA_eq_ok {p : List Word} {i j : Instr} : decodeHA p i = .ok j ↔ p = [] ∧ i = j := by
  cases p <;> simp [decodeHA]

theorem decodeHP_eq_ok {a : Arg} {p : List Word} {f : Item → Instr} {j : Instr} :
    decodeHP a p f = .ok j ↔ a = 0#32 ∧ ∃ v, p = [v] ∧ f v = j := by
  by_cases ha : a = 0#32
  · match p with
    | [] | [_] | _ :: _ :: _ => simp [decodeHP, ha]
  · simp [decodeHP, ha]

theorem decodeHB_eq_ok {a : Arg} {p : List Word} {f : List Item → Instr} {j : Instr} :
    decodeHB a p f = .ok j ↔ p.length = a.toNat ∧ f p = j := by
  by_cases hp : p.length = a.toNat <;> simp [decodeHB, hp]

/-! ### The operands of an opcode (R72 to R75) -/

/-- Operands make a command exactly when they are legal for the opcode's format. -/
theorem exists_decodeOperands_iff {op : Opcode} {c : Ctx} {a : Arg} {p : List Word} :
    (∃ i, decodeOperands op c a p = .ok i) ↔ op.format.Legal a p := by
  cases op with
  | rsClear | dlClear | apClear => simp [decodeOperands, decodeH0_eq_ok, Opcode.format]
  | rsReadh | rsReadt | rsReadat | rsResize | rsItemat | apSetlen => simp [decodeOperands, decodeHA_eq_ok, Opcode.format]
  | rsWrite | dlSetdelay | dlProcess | apSetgain | apProcess => simp [decodeOperands, decodeHP_eq_ok, Opcode.format]
  | rsWriteb => simp [decodeOperands, decodeHB_eq_ok, Opcode.format]

/-- The command that operands make is of the opcode and has these operands. -/
theorem opcode_encode_of_decodeOperands {op : Opcode} {c : Ctx} {a : Arg} {p : List Word} {i : Instr}
    (h : decodeOperands op c a p = .ok i) : i.opcode = op ∧ encode i = (header op c a, p) := by
  cases op with
  | rsClear | dlClear | apClear =>
    obtain ⟨⟨rfl, rfl⟩, rfl⟩ := decodeH0_eq_ok.1 h
    exact ⟨rfl, rfl⟩
  | rsReadh | rsReadt | rsReadat | rsResize | rsItemat | apSetlen =>
    obtain ⟨rfl, rfl⟩ := decodeHA_eq_ok.1 h
    simp [encode, Instr.opcode, Instr.ctx, Instr.arg, Instr.payload]
  | rsWrite | dlSetdelay | dlProcess | apSetgain | apProcess =>
    obtain ⟨rfl, v, rfl, rfl⟩ := decodeHP_eq_ok.1 h
    exact ⟨rfl, rfl⟩
  | rsWriteb =>
    obtain ⟨hp, rfl⟩ := decodeHB_eq_ok.1 h
    simp [encode, Instr.opcode, Instr.ctx, Instr.arg, Instr.payload, hp]

/-! ### Decoding a header and its payload (R78) -/

theorem ofByte_eq_some_iff {b : BitVec 8} {op : Opcode} : Opcode.ofByte b = some op ↔ op.byte = b :=
  ⟨byte_of_ofByte, fun h => h ▸ ofByte_byte op⟩

theorem Opcode.byte_injective {a b : Opcode} (h : a.byte = b.byte) : a = b :=
  Option.some.inj ((ofByte_byte a).symm.trans ((congrArg Opcode.ofByte h).trans (ofByte_byte b)))

/-- A command is read exactly from an opcode of the table, zero reserved bits and operands that make it. -/
theorem decode_eq_ok_iff {h : Word} {p : List Word} {i : Instr} :
    decode h p = .ok i ↔
      ∃ op : Opcode, op.byte = headerOpcode h ∧ headerRsv h = 0#16 ∧ decodeOperands op (headerCtx h) (headerArg h) p = .ok i := by
  simp only [← ofByte_eq_some_iff]
  cases ho : Opcode.ofByte (headerOpcode h) with
  | none => simp [decode, ho]
  | some op => by_cases hr : headerRsv h = 0#16 <;> simp [decode, ho, hr]

/-- No bit is dropped: the command read has exactly the words read (R71 to R75). -/
theorem encode_of_decode {h : Word} {p : List Word} {i : Instr} (hd : decode h p = .ok i) : encode i = (h, p) := by
  obtain ⟨op, ho, hr, hops⟩ := decode_eq_ok_iff.1 hd
  rw [(opcode_encode_of_decodeOperands hops).2, header_of_fields ho hr]

/-- A header and a payload make a command of an opcode exactly when the header names it, its reserved bits are zero and the operands
are legal for the format. -/
theorem exists_decode_opcode_iff {h : Word} {p : List Word} {op : Opcode} :
    (∃ i, decode h p = .ok i ∧ i.opcode = op) ↔
      op.byte = headerOpcode h ∧ headerRsv h = 0#16 ∧ op.format.Legal (headerArg h) p := by
  constructor
  · rintro ⟨i, hd, rfl⟩
    obtain ⟨op, ho, hr, hops⟩ := decode_eq_ok_iff.1 hd
    obtain ⟨rfl, -⟩ := opcode_encode_of_decodeOperands hops
    exact ⟨ho, hr, exists_decodeOperands_iff.1 ⟨i, hops⟩⟩
  · rintro ⟨ho, hr, hl⟩
    obtain ⟨i, hops⟩ := exists_decodeOperands_iff (c := headerCtx h).2 hl
    exact ⟨i, decode_eq_ok_iff.2 ⟨op, ho, hr, hops⟩, (opcode_encode_of_decodeOperands hops).1⟩

/-- R78: a decode is an error exactly under one of its four conditions. -/
theorem exists_decode_error_iff {h : Word} {p : List Word} :
    (∃ e, decode h p = .error e) ↔
      (∀ op : Opcode, op.byte ≠ headerOpcode h) ∨
      headerRsv h ≠ 0#16 ∨
      (∃ op : Opcode, op.byte = headerOpcode h ∧ (op.format = .h0 ∨ op.format = .hp) ∧ headerArg h ≠ 0#32) ∨
      (∃ op : Opcode, op.byte = headerOpcode h ∧ p.length ≠ op.format.payloadLength (headerArg h)) := by
  constructor
  · rintro ⟨e, he⟩
    by_cases hop : ∃ op : Opcode, op.byte = headerOpcode h
    · obtain ⟨op, ho⟩ := hop
      by_cases hr : headerRsv h = 0#16
      · have hl : ¬ op.format.Legal (headerArg h) p := fun hl => by
          obtain ⟨i, hd, -⟩ := exists_decode_opcode_iff.2 ⟨ho, hr, hl⟩
          cases he.symm.trans hd
        rcases Format.not_legal_iff.1 hl with harg | hlen
        · exact .inr (.inr (.inl ⟨op, ho, harg⟩))
        · exact .inr (.inr (.inr ⟨op, ho, hlen⟩))
      · exact .inr (.inl hr)
    · exact .inl (not_exists.1 hop)
  · intro hbad
    cases hd : decode h p with
    | error e => exact ⟨e, rfl⟩
    | ok i =>
      obtain ⟨hi, hr, hl⟩ := exists_decode_opcode_iff.1 ⟨i, hd, rfl⟩
      rcases hbad with hnone | hrsv | ⟨op, ho, hf, harg⟩ | ⟨op, ho, hlen⟩
      · exact absurd hi (hnone _)
      · exact absurd hr hrsv
      · obtain rfl := Opcode.byte_injective (ho.trans hi.symm)
        exact absurd (hl.1 hf) harg
      · obtain rfl := Opcode.byte_injective (ho.trans hi.symm)
        exact absurd hl.2 hlen

/-! ### The rows of the opcode table (R75) -/

/-- A word is its four fields (R71). -/
theorem append_fields (w : Word) :
    (headerOpcode w ++ headerCtx w ++ headerRsv w ++ headerArg w : BitVec (8 + 8 + 16 + 32)) = w := by
  simp only [headerOpcode, headerCtx, headerRsv, headerArg, BitVec.extractLsb'_append_extractLsb'_eq_extractLsb']
  exact BitVec.extractLsb'_eq_self

/-- Words are equal exactly when their four fields are. -/
theorem eq_iff_fields {v w : Word} :
    v = w ↔ headerOpcode v = headerOpcode w ∧ headerCtx v = headerCtx w ∧ headerRsv v = headerRsv w ∧ headerArg v = headerArg w := by
  constructor
  · rintro rfl
    exact ⟨rfl, rfl, rfl, rfl⟩
  · rintro ⟨ho, hc, hr, ha⟩
    rw [← append_fields v, ho, hc, hr, ha, append_fields]

/-- The match column is the opcode's byte over zeros. -/
theorem Opcode.pattern_eq_header (op : Opcode) : op.pattern = header op 0#8 0#32 := by
  cases op <;> rfl

/-- The header fields of R75's masked word: the mask leaves out the context, and the `arg` where the format uses it. -/
theorem fields_and_mask (h : Word) (op : Opcode) :
    headerOpcode (h &&& op.mask) = headerOpcode h ∧ headerCtx (h &&& op.mask) = 0#8 ∧ headerRsv (h &&& op.mask) = headerRsv h ∧
      headerArg (h &&& op.mask) = if op.format = .h0 ∨ op.format = .hp then headerArg h else 0#32 := by
  simp only [headerOpcode, headerCtx, headerRsv, headerArg, BitVec.extractLsb'_and, Opcode.mask]
  cases op.format with
  | h0 | hp => exact ⟨BitVec.and_allOnes, BitVec.and_zero, BitVec.and_allOnes, BitVec.and_allOnes⟩
  | ha | hb => exact ⟨BitVec.and_allOnes, BitVec.and_zero, BitVec.and_allOnes, BitVec.and_zero⟩

/-- R75's `H AND mask = match` in the fields of the header. -/
theorem and_mask_eq_pattern_iff {h : Word} {op : Opcode} :
    h &&& op.mask = op.pattern ↔
      op.byte = headerOpcode h ∧ headerRsv h = 0#16 ∧ (op.format = .h0 ∨ op.format = .hp → headerArg h = 0#32) := by
  obtain ⟨ho, hc, hr, ha⟩ := fields_and_mask h op
  rw [eq_iff_fields, ho, hc, hr, ha, op.pattern_eq_header]
  simp [eq_comm (a := op.byte)]

end Sys2Proof

namespace Sys2Proof.Machine

/-- Settles O3: the command read has the words read, fault entry is `afterFault` by definition, and R78's conditions are those of
`exists_decode_error_iff`. -/
theorem decodeIsIllegalExactlyWhen : Obligations.DecodeIsIllegalExactlyWhen := by
  refine ⟨fun h p => ?_, fun s h p rest e hv hi hf hd => step_illegal hv hi hf hd, fun h p => exists_decode_error_iff⟩
  cases hd : decode h p with
  | error e => exact .inl ⟨e, rfl⟩
  | ok i => exact .inr ⟨i, rfl, encode_of_decode hd⟩

/-- Settles O4: a payload of the length the header asks for completes it to a command. -/
theorem headerSelectsItsTableRow : Obligations.HeaderSelectsItsTableRow := by
  intro h op
  simp only [and_mask_eq_pattern_iff, exists_decode_opcode_iff, exists_and_left, Format.exists_legal_iff]

/-- Settles O5: both rows have the header's opcode byte. -/
theorem tableRowsDoNotOverlap : Obligations.TableRowsDoNotOverlap := by
  intro h a b ha hb
  obtain ⟨hbyte, -⟩ := and_mask_eq_pattern_iff.1 ha
  obtain ⟨hbyte', -⟩ := and_mask_eq_pattern_iff.1 hb
  exact Opcode.byte_injective (hbyte.trans hbyte'.symm)

/-- Settles O6: the words are those of the commands, which the round trip reads back. -/
theorem workedEncodings : Obligations.WorkedEncodings := by
  refine ⟨?_, ?_, ?_, ?_, ?_, ?_, ?_, ?_⟩
  · exact Laws.RoundTrip.rsWrite 1#8 0x3FF0000000000000#64 rfl
  · exact Laws.RoundTrip.rsReadh 1#8 3 rfl
  · exact Laws.RoundTrip.rsReadat 1#8 (-1) rfl
  · exact Laws.RoundTrip.rsResize 1#8 3 rfl
  · exact Laws.RoundTrip.rsClear 255#8 rfl
  · exact Laws.RoundTrip.dlSetdelay 2#8 0x4004000000000000#64 rfl
  · exact Laws.RoundTrip.apSetlen 3#8 4 rfl
  · exact Laws.RoundTrip.apProcess 3#8 0x3FF0000000000000#64 rfl

/-- Settles O7: each field is one part of the status word's concatenation. -/
theorem statusWordFields : Obligations.StatusWordFields := by
  intro status count hc
  unfold statusWord
  refine ⟨?_, ?_, ?_⟩
  · rw [BitVec.extractLsb'_append_eq_of_le (by norm_num), BitVec.extractLsb'_append_eq_left]
  · rw [BitVec.extractLsb'_append_eq_of_le (by norm_num), BitVec.extractLsb'_append_eq_right]
  · rw [BitVec.extractLsb'_append_eq_right, Laws.RoundTrip.toNat_arg hc]

end Sys2Proof.Machine

/-! PROOFS. The assembler (30_encoding.md R79, R80): each operand parser answers only operands in the range of R73, and a line answers
what the parser of its mnemonic answers. -/

namespace Sys2Proof.Machine

/-! ### Operands by format -/

/-- Whatever the operand text, the parser `g` answers only well-formed commands. -/
def AnswersWellFormed (g : Option (List Char) → Option (List Instr)) : Prop :=
  ∀ o is, g o = some is → ∀ i ∈ is, i.wf = true

theorem operandNone_wf {i : Instr} (h : i.wf = true) : AnswersWellFormed (operandNone i) := by
  rintro (_ | cs) is ho
  · cases ho
    simpa using h
  · cases ho

/-- An operand that is parsed and then tested for its range, the common form of the parsers of R73's integers and of blocks. -/
def rangedOperand {α : Type} (parse : List Char → Option α) (P : α → Prop) [DecidablePred P] (f : α → Instr)
    (o : Option (List Char)) : Option (List Instr) :=
  o.bind fun cs => (parse cs).bind fun a => if P a then some [f a] else none

theorem rangedOperand_wf {α : Type} {parse : List Char → Option α} {P : α → Prop} [DecidablePred P] {f : α → Instr}
    (h : ∀ a, (f a).wf = decide (P a)) : AnswersWellFormed (rangedOperand parse P f) := by
  intro o is ho
  simp only [rangedOperand, Option.bind_eq_some_iff, Option.ite_none_right_eq_some, Option.some.injEq] at ho
  obtain ⟨cs, -, a, -, hP, rfl⟩ := ho
  simpa [h] using hP

theorem operandNat_eq_ranged (f : Nat → Instr) : operandNat f = rangedOperand parseNat FitsUnsigned f := by
  funext o
  cases o with
  | none => rfl
  | some cs => simp only [operandNat, rangedOperand, Option.bind_some]; cases parseNat cs <;> rfl

theorem operandInt_eq_ranged (f : Int → Instr) : operandInt f = rangedOperand parseInt FitsSigned f := by
  funext o
  cases o with
  | none => rfl
  | some cs => simp only [operandInt, rangedOperand, Option.bind_some]; cases parseInt cs <;> rfl

theorem operandBlock_eq_ranged (f : List Item → Instr) :
    operandBlock f = rangedOperand parseBlock (fun vs => FitsUnsigned vs.length) f := by
  funext o
  cases o with
  | none => rfl
  | some cs => simp only [operandBlock, rangedOperand, Option.bind_some]; cases parseBlock cs <;> rfl

theorem operandItem_wf {f : Item → Instr} (h : ∀ v, (f v).wf = true) : AnswersWellFormed (operandItem f) := by
  rintro (_ | cs) is ho
  · cases ho
  · obtain ⟨v, -, rfl⟩ := Option.map_eq_some_iff.1 ho
    simpa using h v

/-- A block-process pseudo-instruction makes one command of each sample (R80). -/
theorem operandExpand_wf {f : Item → Instr} (h : ∀ v, (f v).wf = true) : AnswersWellFormed (operandExpand f) := by
  rintro (_ | cs) is ho
  · cases ho
  · obtain ⟨vs, -, rfl⟩ := Option.map_eq_some_iff.1 ho
    exact List.forall_mem_map.2 fun v _ => h v

/-! ### Lines -/

/-- Every mnemonic's parser answers only well-formed commands: the range its row tests is the one its constructor asks for. -/
theorem asmTable_wf (ctx : Ctx) : ∀ row ∈ asmTable ctx, AnswersWellFormed row.2 := by
  simp only [asmTable, List.forall_mem_cons, operandNat_eq_ranged, operandInt_eq_ranged, operandBlock_eq_ranged]
  refine ⟨operandItem_wf ?_, rangedOperand_wf ?_, rangedOperand_wf ?_, rangedOperand_wf ?_, rangedOperand_wf ?_, rangedOperand_wf ?_,
    rangedOperand_wf ?_, operandNone_wf ?_, rangedOperand_wf ?_, operandItem_wf ?_, operandItem_wf ?_, operandExpand_wf ?_,
    operandNone_wf ?_, rangedOperand_wf ?_, operandItem_wf ?_, operandItem_wf ?_, operandExpand_wf ?_, operandNone_wf ?_,
    List.forall_mem_nil _⟩ <;> intros <;> rfl

/-- A line stands for nothing, or for what the parser of its mnemonic answers. -/
theorem assembleLine_eq_some {line : List Char} {is : List Instr} (h : assembleLine line = some is) :
    is = [] ∨ ∃ ctx, ∃ row ∈ asmTable ctx, ∃ o, row.2 o = some is := by
  unfold assembleLine at h
  split at h
  · exact .inl (Option.some.inj h).symm
  · dsimp only at h
    split at h
    · cases h
    · split at h
      · next hrow => exact .inr ⟨_, _, List.mem_of_find?_eq_some hrow, _, h⟩
      · cases h

/-- Settles O8: by the row of the line's mnemonic. -/
theorem assembledCommandsAreWellFormed : Obligations.AssembledCommandsAreWellFormed := by
  intro line is h
  rcases assembleLine_eq_some h with rfl | ⟨ctx, row, hrow, o, ho⟩
  · exact List.forall_mem_nil _
  · exact asmTable_wf ctx row hrow o is ho

end Sys2Proof.Machine

/-! PROOFS. The ring store (40_ringstore.md R100 to R107, R120, R122): an accepted RS command answers what its store primitive answers,
in exactly the state `afterRs` names; a run round the window is two contiguous copies; a shrink undone keeps all but the cursor. -/

namespace Sys2Proof.Machine

/-! ### The envelope round a primitive of the RS unit (R170) -/

/-- An accepted command whose primitive writes the store answers the new store and no data. -/
theorem envelope_rsWrite {s : State} {ctx : Ctx} {check : Option FaultCode} {f : Nat → Store → Except Fault Store} {S : Store}
    (ha : s.Accepts .rs ctx) (hc : check = none) (hf : f s.cfg.rsCap s.rs.store = .ok S) :
    envelope .rs ctx check (runRsWrite f) s = .next (s.afterRs ctx S []) := by
  have hrun : runRsWrite f (s.bindOwner .rs ctx) = .ok (s.setRs { store := S, owner := { bound := true, ctx := ctx } }, []) := by
    rw [bindOwner_of_accepts ha]
    simp [runRsWrite, hf, State.setOwner, State.setRs, bind, Except.bind, pure, Except.pure]
  exact envelope_run ha hc hrun

/-- An accepted command whose primitive only reads answers the items read and the store as it was. -/
theorem envelope_rsRead {s : State} {ctx : Ctx} {check : Option FaultCode} {f : Nat → Store → Except Fault (List Item)}
    {q : List Item} (ha : s.Accepts .rs ctx) (hc : check = none) (hf : f s.cfg.rsCap s.rs.store = .ok q) :
    envelope .rs ctx check (runRsRead f) s = .next (s.afterRs ctx s.rs.store q) := by
  have hrun : runRsRead f (s.bindOwner .rs ctx) =
      .ok (s.setRs { store := s.rs.store, owner := { bound := true, ctx := ctx } }, q) := by
    rw [bindOwner_of_accepts ha]
    simp [runRsRead, hf, State.setOwner, State.setRs, bind, Except.bind, pure, Except.pure]
  exact envelope_run ha hc hrun

/-- A context whose RS command completed is let in again. -/
theorem accepts_afterRs {s : State} {ctx : Ctx} (ha : s.Accepts .rs ctx) (S : Store) (q : List Item) :
    (s.afterRs ctx S q).Accepts .rs ctx :=
  ⟨ha.1, by simp [State.foreign, State.owner, State.afterRs]⟩

/-! ### Indices of a run -/

/-- The remainder of a sum of natural numbers, as `readRun_eq` spells it. -/
theorem toNat_emod_add (a i l : Nat) : (((a : Int) + (i : Int)) % (l : Int)).toNat = (a + i) % l := by
  rw [← Nat.cast_add, ← Int.natCast_emod, Int.toNat_natCast]

/-- Within one turn of the window a run does not come back to its first index (R101: the targets are distinct). -/
theorem add_mod_ne_mod {a i l : Nat} (hi : 0 < i) (hl : i < l) : (a + i) % l ≠ a % l := by
  intro h
  have hdvd : l ∣ i := (Nat.modEq_zero_iff_dvd).1 (Nat.ModEq.add_left_cancel' a h)
  exact absurd (Nat.le_of_dvd hi hdvd) (by omega)

/-! ### Runs of writes (R101) -/

section WriteRun

variable {cap lsize : Nat} (h1 : 1 ≤ lsize) (h2 : lsize ≤ cap)
include h1 h2

theorem writeRun_cons (m : Memory) (start : Nat) (v : Item) (vs : List Item) :
    writeRun cap lsize m start (v :: vs) = writeRun cap lsize (m.write (start % lsize) v) (start + 1 : Nat) vs := by
  have hp : start % lsize < cap := (Nat.mod_lt _ h1).trans_le h2
  simp only [writeRun, windowMod_natCast _ h1, memWrite_single_eq m v hp, bind, Except.bind, Nat.cast_add, Nat.cast_one]

/-- A run of writes leaves every index but its targets alone. -/
theorem read_writeRun_other {p : Nat} (vs : List Item) {m m' : Memory} {start : Nat}
    (hrun : writeRun cap lsize m start vs = .ok m') (hp : ∀ i, i < vs.length → p ≠ (start + i) % lsize) :
    m'.read p = m.read p := by
  induction vs generalizing m start with
  | nil => cases hrun; rfl
  | cons v vs ih =>
    rw [writeRun_cons h1 h2] at hrun
    have hrest : m'.read p = (m.write (start % lsize) v).read p := by
      refine ih hrun fun i hi => ?_
      rw [Nat.add_assoc, Nat.add_comm 1]
      exact hp (i + 1) (Nat.succ_lt_succ hi)
    exact hrest.trans (Memory.read_write_other m v (hp 0 (Nat.succ_pos _)))

/-- A run no longer than the window leaves item `i` of the block at its target: no later write of the run goes there. -/
theorem read_writeRun_target (vs : List Item) {m m' : Memory} {start : Nat} (hw : Memory.wf m = true)
    (hrun : writeRun cap lsize m start vs = .ok m') (hlen : vs.length ≤ lsize) (i : Nat) (hi : i < vs.length) :
    m'.read ((start + i) % lsize) = vs[i] := by
  induction vs generalizing m start i with
  | nil => exact absurd hi (Nat.not_lt_zero i)
  | cons v vs ih =>
    rw [writeRun_cons h1 h2] at hrun
    rw [List.length_cons] at hlen hi
    cases i with
    | zero =>
      have hdistinct : ∀ j, j < vs.length → start % lsize ≠ (start + 1 + j) % lsize := by
        intro j hj
        rw [Nat.add_assoc]
        exact (add_mod_ne_mod (by omega) (by omega)).symm
      rw [Nat.add_zero, read_writeRun_other h1 h2 vs hrun hdistinct, Memory.read_write_same _ _ hw, List.getElem_cons_zero]
    | succ i =>
      rw [List.getElem_cons_succ, ← ih (Memory.wf_write _ _ hw) hrun (by omega) i (by omega), Nat.add_assoc, Nat.add_comm 1]

/-- A run that stays in front of the end of the window is one contiguous copy. -/
theorem writeRun_eq_writeList (vs : List Item) (m : Memory) {start : Nat} (h : start + vs.length ≤ lsize) :
    writeRun cap lsize m start vs = .ok (m.writeList start vs) := by
  induction vs generalizing m start with
  | nil => rfl
  | cons v vs ih =>
    rw [List.length_cons] at h
    rw [writeRun_cons h1 h2, Nat.mod_eq_of_lt (by omega), ih _ (by omega)]
    rfl

/-- A run of writes is a run of its front and, from where that ends, a run of the rest. -/
theorem writeRun_append (us vs : List Item) {m m' : Memory} {start : Nat} (h : writeRun cap lsize m start us = .ok m') :
    writeRun cap lsize m start (us ++ vs) = writeRun cap lsize m' (start + us.length : Nat) vs := by
  induction us generalizing m start with
  | nil => cases h; rfl
  | cons u us ih =>
    rw [writeRun_cons h1 h2] at h
    rw [List.cons_append, writeRun_cons h1 h2, ih h, List.length_cons, Nat.add_assoc, Nat.add_comm 1]

/-- The end of the window is its index 0. -/
theorem writeRun_lsize_eq_zero (m : Memory) (vs : List Item) :
    writeRun cap lsize m lsize vs = writeRun cap lsize m (0 : Nat) vs := by
  suffices ∀ start : Nat, writeRun cap lsize m (lsize + start : Nat) vs = writeRun cap lsize m start vs from this 0
  induction vs generalizing m with
  | nil => exact fun _ => rfl
  | cons v vs ih =>
    intro start
    rw [writeRun_cons h1 h2, writeRun_cons h1 h2, Nat.add_mod_left, Nat.add_assoc, ih]

/-- A block no longer than the window goes round it in two contiguous copies (R120). -/
theorem writeRun_eq_two_copies (m : Memory) {start : Nat} (hs : start < lsize) (vs : List Item) (hlen : vs.length ≤ lsize) :
    writeRun cap lsize m start vs =
      .ok ((m.writeList start (vs.take (lsize - start))).writeList 0 (vs.drop (lsize - start))) := by
  have hfront : start + (vs.take (lsize - start)).length ≤ lsize := by rw [List.length_take]; omega
  have hsplit := writeRun_append h1 h2 (vs.take (lsize - start)) (vs.drop (lsize - start))
    (writeRun_eq_writeList h1 h2 (vs.take (lsize - start)) m hfront)
  rw [List.take_append_drop] at hsplit
  rw [hsplit]
  rcases Nat.le_total vs.length (lsize - start) with hle | hge
  · rw [List.drop_eq_nil_of_le hle]
    rfl
  · rw [List.length_take, Nat.min_eq_left hge, Nat.add_sub_cancel' hs.le, writeRun_lsize_eq_zero h1 h2,
      writeRun_eq_writeList h1 h2 _ _ (by rw [List.length_drop]; omega)]

end WriteRun

/-! ### Runs of reads (R102, R103) -/

/-- A run no longer than the window is read in two contiguous copies (R120). -/
theorem readRun_eq_two_copies {cap : Nat} {S : Store} (h : Store.Ok cap S) {start n : Nat} (hs : start < S.lsize)
    (hn : n ≤ S.lsize) :
    readRun cap S.lsize S.items start n =
      .ok (S.items.readList start (min n (S.lsize - start)) ++ S.items.readList 0 (n - min n (S.lsize - start))) := by
  rw [readRun_eq h]
  congr 1
  refine List.ext_getElem (by simp) fun i hi _ => ?_
  rw [List.length_map, List.length_range] at hi
  rw [List.getElem_map, List.getElem_range, toNat_emod_add, List.getElem_append]
  split
  · next hfront =>
    rw [Memory.length_readList] at hfront
    rw [Memory.getElem_readList, Nat.mod_eq_of_lt (by omega)]
  · next hrest =>
    rw [Memory.length_readList] at hrest
    rw [Memory.getElem_readList, Memory.length_readList, Nat.mod_eq_sub_mod (by omega), Nat.mod_eq_of_lt (by omega)]
    congr 1
    omega

/-! ### The obligations -/

/-- Settles O20: the run of the block writes each target once and nothing else (R101). -/
theorem rsWritebStoresTheBlock : Obligations.RsWritebStoresTheBlock := by
  intro s ctx vs h ha hlen
  have ⟨h1, h2, _, hitems, _⟩ := h
  obtain ⟨m, hwrite, hrun, -, -, -, hw, -⟩ := stWriteBlock_total h vs
  have hc : argCheck (.rsWriteb ctx vs) s = none := (argCheck_eq_none_iff _ s).2 hlen
  exact ⟨m, envelope_rsWrite ha hc hwrite, hw, read_writeRun_target h1 h2 vs hitems hrun hlen,
    fun _ => read_writeRun_other h1 h2 vs hrun⟩

/-- Settles O19: `st_write` is one write at the cursor (R100). -/
theorem rsWriteStoresAtTheCursor : Obligations.RsWriteStoresAtTheCursor := by
  intro s ctx v h ha
  have ⟨_, _, _, hitems, _⟩ := h
  exact ⟨_, envelope_rsWrite ha rfl (stWrite_eq h v), Memory.wf_write _ _ hitems, fun p => Memory.read_write _ p v hitems⟩

/-- Settles O21: both names run `st_read_head`, whose indices are reduced once more where its loop starts (R102, R80). -/
theorem rsReadHeadAnswersTheNewest : Obligations.RsReadHeadAnswersTheNewest := by
  intro s ctx n h ha hn
  have hc : checkBlockLen n s = none := (argCheck_eq_none_iff (.rsReadh ctx n) s).2 hn
  have hexec := envelope_rsRead (f := fun cap S => stReadHead cap S n) ha hc (stReadHead_eq h n)
  refine ⟨_, hexec, hexec, by simp, fun i _ => ?_⟩
  rw [List.getElem_map, List.getElem_range, Int.emod_add_emod]

/-- Settles O22: the run starts at the cursor (R103). -/
theorem rsReadTailAnswersTheOldest : Obligations.RsReadTailAnswersTheOldest := by
  intro s ctx n h ha hn
  have hc : argCheck (.rsReadt ctx n) s = none := (argCheck_eq_none_iff _ s).2 hn
  refine ⟨_, envelope_rsRead ha hc (stReadTail_eq h n), by simp, fun i _ => ?_⟩
  rw [List.getElem_map, List.getElem_range, toNat_emod_add]

/-- Settles O23: the Euclidean remainder brings every offset into the window (R104). -/
theorem rsReadAtNeverLeavesTheWindow : Obligations.RsReadAtNeverLeavesTheWindow := by
  intro s ctx k h ha
  exact envelope_rsRead ha rfl (by rw [stReadAt_eq h k]; rfl)

/-- Settles O27: reads and writes round the window, each in its two-copy form (R120). -/
theorem blocksAreTwoContiguousCopies : Obligations.BlocksAreTwoContiguousCopies := by
  intro cap S vs n start h hs
  have ⟨h1, h2, _, _, _⟩ := h
  refine ⟨fun hn => ⟨_, _, if_pos (by omega), if_pos (by omega), readRun_eq_two_copies h hs hn⟩,
    fun hlen => ⟨_, _, if_pos ?_, if_pos ?_, writeRun_eq_two_copies h1 h2 _ hs vs hlen⟩⟩
  · rw [List.length_take]; omega
  · rw [List.length_drop]; omega

/-- Settles O24: `st_resize` reduces the cursor modulo the new size (R105). -/
theorem rsResizeReducesTheCursor : Obligations.RsResizeReducesTheCursor := by
  intro s ctx n ha h1 hn
  have hc : argCheck (.rsResize ctx n) s = none := (argCheck_eq_none_iff _ s).2 ⟨h1, hn⟩
  exact envelope_rsWrite ha hc (stResize_eq s.rs.store h1)

/-- Settles O28: the second resize finds the cursor already below the smaller size, so it reduces nothing (R122). -/
theorem shrinkThenGrowKeepsTheItems : Obligations.ShrinkThenGrowKeepsTheItems := by
  intro s ctx m hinv ha h1 hm
  obtain ⟨-, ⟨hl, hcap, -⟩, -⟩ := hinv
  have hshrink := rsResizeReducesTheCursor s ctx m ha h1 (by omega)
  have hgrow := rsResizeReducesTheCursor _ ctx s.rs.store.lsize
    (accepts_afterRs ha { lsize := m, wc := s.rs.store.wc % m, items := s.rs.store.items } []) hl hcap
  have hkept : s.rs.store.wc % m % s.rs.store.lsize = s.rs.store.wc % m :=
    Nat.mod_eq_of_lt ((Nat.mod_lt _ h1).trans hm)
  refine ⟨_, by simp only [execEach, hshrink, hgrow]; rfl, ?_, ?_⟩
  · simp [State.afterRs, hkept]
  · simp [State.afterRs, hkept, Nat.mod_eq_iff_lt (by omega : m ≠ 0)]

/-- Settles O25: `st_clear` lists no item, and an unlisted slot reads zero (R106). -/
theorem rsClearZeroesEverySlot : Obligations.RsClearZeroesEverySlot := by
  intro s ctx ha
  exact ⟨[], envelope_rsWrite (f := fun _ S => .ok (stClear S)) ha rfl rfl, Memory.read_nil⟩

/-- Settles O26: `st_item_at` reads below the capacity, whatever the window (R107). -/
theorem rsItemAtReadsThePhysicalSlot : Obligations.RsItemAtReadsThePhysicalSlot := by
  intro s ctx p ha hp
  have hc : argCheck (.rsItemat ctx p) s = none := (argCheck_eq_none_iff _ s).2 hp
  exact envelope_rsRead ha hc (by rw [stItemAt_eq _ hp]; rfl)

end Sys2Proof.Machine

/-! PROOFS. The delay line (41_delayline.md): an accepted DL command answers what its run answers, in exactly the state `afterDl`
names; a request is split exactly (R130); the output of `DL.PROCESS` is the interpolation of taps of the store it leaves (R131, R133),
and tap 0 of that store is its item of age `DINT` (R140). -/

namespace Sys2Proof.Machine

/-! ### The envelope round a run of the DL unit (R170) -/

/-- An accepted command answers the registers, the store and the data its run answers. -/
theorem envelope_dl {s : State} {ctx : Ctx} {check : Option FaultCode} {run : State → Except Fault (State × List Item)} {S : Store}
    {dint : Nat} {dfrac : Item} {draws : Nat} {q : List Item} (ha : s.Accepts .dl ctx) (hc : check = none)
    (hr : run (s.setOwner .dl { bound := true, ctx := ctx }) =
      .ok ((s.setDl { store := S, dint := dint, dfrac := dfrac, owner := { bound := true, ctx := ctx } }).setDraws draws, q)) :
    envelope .dl ctx check run s = .next (s.afterDl ctx S dint dfrac draws q) :=
  envelope_run ha hc (by rw [bindOwner_of_accepts ha]; exact hr)

/-- A context whose DL command completed is let in again. -/
theorem accepts_afterDl {s : State} {ctx : Ctx} (ha : s.Accepts .dl ctx) (S : Store) (dint : Nat) (dfrac : Item) (draws : Nat)
    (q : List Item) : (s.afterDl ctx S dint dfrac draws q).Accepts .dl ctx :=
  ⟨ha.1, by simp [State.foreign, State.owner, State.afterDl]⟩

/-! ### The bounds of a valid configuration (R4, R5) -/

theorem dlMaxd_le_maxCap {c : Config} (h : cfgValid c = true) : c.dlMaxd ≤ maxCap := by
  simp only [cfgValid, Bool.and_eq_true, decide_eq_true_eq] at h
  unfold dlCap at h
  omega

/-- Every mode asks for at least one guard sample, so the greatest delay is an age inside the window. -/
theorem dlMaxd_lt_dlCap {c : Config} (h : cfgValid c = true) : c.dlMaxd < dlCap c := by
  have hguard : 1 ≤ guardMin c.dlMode := by cases c.dlMode <;> simp [guardMin]
  simp only [cfgValid, Bool.and_eq_true, decide_eq_true_eq] at h
  unfold dlCap
  omega

/-! ### The clamp and the split (R130) -/

theorem fle_eq_decide {a b : Item} (ha : isNaN a = false) (hb : isNaN b = false) : fle a b = decide (val a ≤ val b) := by
  simp [fle, ha, hb]

theorem isNaN_zero : isNaN 0#64 = false := isNaN_false_of_finite isFinite_zero

theorem clampDelay_of_le_zero {maxd : Nat} {d : Item} (hd : isNaN d = false) (h : val d ≤ 0) : clampDelay maxd d = 0#64 := by
  simp [clampDelay, fle_eq_decide hd isNaN_zero, h]

/-- The clamp of a request above 0, its comparison with the maximum exact. -/
theorem clampDelay_of_pos {maxd : Nat} {d : Item} (hm : maxd ≤ maxCap) (hd : isNaN d = false) (h : 0 < val d) :
    clampDelay maxd d = if ((maxd * oneMag : Nat) : Int) ≤ val d then f64 maxd else d := by
  have hm' : maxd ≤ 9007199254740992 := by unfold maxCap at hm; omega
  obtain ⟨hfin, -, -⟩ := f64_exact hm'
  simp only [clampDelay, fle_eq_decide hd isNaN_zero, fle_eq_decide (isNaN_false_of_finite hfin) hd, val_f64 hm', val_zero,
    decide_eq_true_eq, not_le.2 h, if_false]

/-- Settles O30: in each range of the request, the clamped one is known, and `clampSplit_exact` says how it is split. -/
theorem dlSetdelayClampsAndSplits : Obligations.DlSetdelayClampsAndSplits := by
  intro s ctx d hv ha hd
  have hm := dlMaxd_le_maxCap hv
  obtain ⟨hn, hf, hsign, hfin, -, htop⟩ := clampSplit_exact s.nanDraws hm hd
  have hc : checkDelay d = none := (argCheck_eq_none_iff (.dlSetdelay ctx d) s).2 hd
  refine ⟨(clampSplit s.nanDraws s.cfg.dlMaxd d).1, (clampSplit s.nanDraws s.cfg.dlMaxd d).2,
    envelope_dl (run := runSetDelay d) ha hc rfl, hsign, ?_, ?_⟩
  · exact hf ▸ Nat.mod_lt _ oneMag_pos
  split_ifs with hlow hhigh
  · rw [clampDelay_of_le_zero hd hlow, mag_zero] at hn hf
    exact ⟨by rw [hn, Nat.zero_div], eq_zero_of_mag hfin hsign (by rw [hf, Nat.zero_mod])⟩
  · obtain ⟨-, -, hmag⟩ := f64_exact (n := s.cfg.dlMaxd) (by unfold maxCap at hm; omega)
    rw [clampDelay_of_pos hm hd (not_le.1 hlow), if_pos hhigh, hmag, Nat.mul_div_cancel _ oneMag_pos] at hn
    exact ⟨hn, htop hn⟩
  · have hclamp := clampDelay_of_pos hm hd (not_le.1 hlow)
    rw [if_neg hhigh] at hclamp
    obtain ⟨-, hpos, -⟩ := clampDelay_range hm hd
    rw [hclamp] at hn hf hpos
    rw [hn, hf, Nat.div_add_mod', val, hpos, if_neg Bool.false_ne_true]

/-! ### The interpolation functions (R134 to R137) -/

/-- Settles O33: each mode computes its formula by definition (R134 to R136). -/
theorem interpolationByMode : Obligations.InterpolationByMode :=
  fun _ _ _ _ _ _ => ⟨rfl, rfl, rfl⟩

theorem signBit_eq_decide_val_neg {a : Item} (h : val a ≠ 0) : signBit a = decide (val a < 0) := by
  have hmag : 0 < mag a := Nat.pos_of_ne_zero (mt (val_eq_zero_iff a).2 h)
  cases hs : signBit a <;> simp [val, hs, hmag]

/-- Subtracting `+0` changes no finite sample, the sign of a zero included. -/
theorem fsub_zero (k : Nat) {a : Item} (ha : isFinite a = true) : fsub k a 0#64 = a := by
  have hsum : val a + val (fneg 0#64) = val a := by simp
  obtain ⟨hfin, hval, hneg, hzero⟩ := fadd_exact k ha (b := fneg 0#64) (by simp)
    (by rw [hsum, natAbs_val]; exact representable_mag ha)
  rw [hsum] at hval hneg hzero
  refine eq_of_mag hfin ha ?_ (by rw [← natAbs_val, ← natAbs_val a, fsub, hval])
  by_cases h0 : val a = 0
  · simp [fsub, hzero h0]
  · rw [fsub, hneg h0, signBit_eq_decide_val_neg h0]

/-- `LINEAR` at the fraction `+0` is `1.0` times tap 0 plus a zero. -/
theorem interpLinear_pInterp0 (k : Nat) : PInterp0 (interpLinear k) := by
  intro a b c d _ hb hc _
  obtain ⟨hfin, hmag⟩ := fmul_zero_left (k + 2) isFinite_zero mag_zero hc
  rw [interpLinear, fsub_zero k isFinite_f64One, fmul_one (k + 1) hb]
  exact fadd_zero_right (k + 3) hb hfin hmag

/-- Settles O34: mode by mode; a cubic interpolator has the property as a value of its type. -/
theorem everyInterpolatorHasPInterp0 : Obligations.EveryInterpolatorHasPInterp0 := by
  intro mode k
  cases mode with
  | none => exact interpNone_pInterp0
  | linear => exact interpLinear_pInterp0 k
  | cubic4 => exact Config.interpCubic4.legal

/-! ### The taps and the output of `DL.PROCESS` (R131, R133) -/

/-- Tap `r` at the delay `dint`, read after the write: offset `C - 1 - dint - r` from the cursor, whatever the guard count. -/
def Store.tap (S : Store) (dint : Nat) (r : Int) : Item :=
  S.items.read (((S.wc : Int) + ((S.lsize : Int) - 1 - dint - r)) % (S.lsize : Int)).toNat

theorem readTap_eq {c : Config} {S : Store} (h : Store.Ok (dlCap c) S) (hl : S.lsize = dlCap c) (dint : Nat) (r : Int) :
    readTap c S dint r = .ok (S.tap dint r) := by
  have hoffset : tapOffset (dlCap c) c.dlGuard dint r = (S.lsize : Int) - 1 - dint - r := by rw [tapOffset, hl]; ring
  rw [readTap, stReadAt_eq h, hoffset, Store.tap]

/-- Tap 0 is the item of age `dint`, one turn of the window on. -/
theorem tap_zero (S : Store) (dint : Nat) : S.tap dint 0 = S.itemOfAge dint := by
  rw [Store.tap, Store.itemOfAge,
    show (S.wc : Int) + ((S.lsize : Int) - 1 - dint - 0) = (S.wc : Int) + (-1 - dint) + S.lsize by ring, Int.add_emod_right]

/-- The interpolation of the taps of a store in the configured mode, `k` the first NaN draw. -/
def dlOutput (c : Config) (k : Nat) (S : Store) (dint : Nat) (dfrac : Item) : Item :=
  interp c.dlMode k (S.tap dint (-1)) (S.tap dint 0) (S.tap dint 1) (S.tap dint 2) dfrac

/-- `DL.PROCESS` answers the output of the store that writing the sample leaves (R131). -/
theorem exec_dlProcess {s : State} {ctx : Ctx} (x : Item) (h : DlUnit.Ok s.cfg s.dl) (ha : s.Accepts .dl ctx) {S : Store}
    (hw : stWrite (dlCap s.cfg) s.dl.store x = .ok S) :
    exec (.dlProcess ctx x) s = .next (s.afterDl ctx S s.dl.dint s.dl.dfrac (s.nanDraws + 4)
      [dlOutput s.cfg s.nanDraws S s.dl.dint s.dl.dfrac]) := by
  obtain ⟨hs, hl, -⟩ := h
  obtain ⟨S', hw', hok, hl', -⟩ := stWrite_ages hs x
  obtain rfl : S' = S := Except.ok.inj (hw'.symm.trans hw)
  refine envelope_dl (run := runDlProcess x) ha rfl ?_
  simp only [runDlProcess, State.setOwner_cfg, State.setOwner_dl_dl, hw, readTap_eq hok (hl'.trans hl), bind, Except.bind, pure,
    Except.pure]
  rfl

/-- Settles O31: the store written is the one of `stWrite_eq`, its taps those of `exec_dlProcess`. -/
theorem dlProcessWritesThenInterpolates : Obligations.DlProcessWritesThenInterpolates := by
  intro s ctx x hinv ha
  obtain ⟨-, -, hdl, -⟩ := hinv
  have ⟨hs, hl, _⟩ := hdl
  have ⟨_, _, _, hitems, _⟩ := hs
  have hexec := exec_dlProcess x hdl ha (stWrite_eq hs x)
  rw [hl] at hexec
  exact ⟨_, Memory.wf_write _ _ hitems, fun p => Memory.read_write _ p x hitems, hexec⟩

/-- Settles O32: `st_clear` lists no item, and an unlisted slot reads zero (R106, R132). -/
theorem dlClearKeepsDelayAndCursor : Obligations.DlClearKeepsDelayAndCursor := by
  intro s ctx ha
  exact ⟨[], envelope_dl (run := runDlClear) ha rfl rfl, Memory.read_nil⟩

/-! ### Runs of `DL.PROCESS` (R140) -/

/-- Every slot holds a finite sample. -/
def Store.FiniteItems (S : Store) : Prop := ∀ p, isFinite (S.items.read p) = true

theorem writeEach_finiteItems {cap : Nat} (vs : List Item) (hvs : ∀ v ∈ vs, isFinite v = true) :
    ∀ {S S' : Store}, Store.Ok cap S → S.FiniteItems → writeEach cap S vs = .ok S' → S'.FiniteItems := by
  induction vs with
  | nil =>
    intro S S' _ hf hw
    cases hw
    exact hf
  | cons v vs ih =>
    intro S S' h hf hw
    obtain ⟨hv, hvs⟩ := List.forall_mem_cons.1 hvs
    have ⟨_, _, _, hitems, _⟩ := h
    rw [writeEach, stWrite_eq h] at hw
    refine ih hvs (stWrite_ok h v) (fun p => ?_) hw
    rw [Memory.read_write _ p v hitems]
    split
    · exact hv
    · exact hf p

/-- A run of `DL.PROCESS` writes its inputs one by one, keeps the delay registers, and answers last the output of the store it
leaves. -/
theorem execEach_dlProcess {ctx : Ctx} (xs : List Item) :
    ∀ {s : State}, DlUnit.Ok s.cfg s.dl → s.Accepts .dl ctx →
      ∃ t, execEach (xs.map (Instr.dlProcess ctx)) s = .next t ∧
        writeEach (dlCap s.cfg) s.dl.store xs = .ok t.dl.store ∧
        (xs ≠ [] → ∃ k, t.port.outbox.head? = some (okResponse [dlOutput s.cfg k t.dl.store s.dl.dint s.dl.dfrac])) := by
  induction xs with
  | nil => exact fun {s} _ _ => ⟨s, rfl, rfl, fun hne => absurd rfl hne⟩
  | cons x xs ih =>
    intro s h ha
    have ⟨hs, hl, hregs⟩ := h
    obtain ⟨S, hw, hok, hl', -⟩ := stWrite_ages hs x
    have hexec := exec_dlProcess x h ha hw
    obtain ⟨t, hrun, hwrite, hlast⟩ := ih (s := s.afterDl ctx S s.dl.dint s.dl.dfrac (s.nanDraws + 4)
      [dlOutput s.cfg s.nanDraws S s.dl.dint s.dl.dfrac]) ⟨hok, hl'.trans hl, hregs⟩ (accepts_afterDl ha ..)
    refine ⟨t, by rw [List.map_cons, execEach, hexec]; exact hrun, by rw [writeEach, hw]; exact hwrite, fun _ => ?_⟩
    cases xs with
    | nil =>
      cases hrun
      exact ⟨s.nanDraws, rfl⟩
    | cons => exact hlast (List.cons_ne_nil _ _)

/-! ### Integer delays (R138, R140) -/

/-- With the fraction `+0` the output is the item of age `dint`: bit for bit in mode `NONE`, as a number in every mode where the items
are finite (R137). -/
theorem dlOutput_zero_frac (c : Config) (k : Nat) (S : Store) (dint : Nat) :
    (c.dlMode = .none → dlOutput c k S dint 0#64 = S.itemOfAge dint) ∧
    (S.FiniteItems → val (dlOutput c k S dint 0#64) = val (S.itemOfAge dint)) := by
  rw [← tap_zero, dlOutput]
  constructor
  · intro hmode
    rw [hmode]
    rfl
  · intro hf
    obtain ⟨-, hval⟩ := everyInterpolatorHasPInterp0 c.dlMode k _ _ _ _ (hf _) (hf _) (hf _) (hf _)
    exact hval

/-- Settles O36: after the run the item of age `DINT` is the input `DINT` calls earlier (R53), and the last output is that item. -/
theorem integerDelaysAreExact : Obligations.IntegerDelaysAreExact := by
  intro s ctx xs hlen hinv ha hfrac
  obtain ⟨hv, -, hdl, -⟩ := hinv
  have ⟨hs, hl, hd, _⟩ := hdl
  obtain ⟨t, hrun, hwrite, hlast⟩ := execEach_dlProcess xs hdl ha
  obtain ⟨k, hhead⟩ := hlast (List.ne_nil_of_length_pos (by omega))
  obtain ⟨S, hwrite', -, -, hages⟩ := writeEach_ages xs hs
  obtain rfl : S = t.dl.store := Except.ok.inj (hwrite'.symm.trans hwrite)
  have hitem : t.dl.store.itemOfAge s.dl.dint = xs[xs.length - 1 - s.dl.dint] := by
    rw [hages _ (by rw [hl]; exact hd.trans_lt (dlMaxd_lt_dlCap hv)), List.getElem?_eq_getElem (by simpa using hlen),
      List.getElem_reverse]
    rfl
  obtain ⟨hbits, hnum⟩ := dlOutput_zero_frac s.cfg k t.dl.store s.dl.dint
  rw [hfrac] at hhead
  rw [hitem] at hbits hnum
  exact ⟨t, _, hrun, hhead, hbits, fun hxs hold => hnum (writeEach_finiteItems xs hxs hs hold hwrite)⟩

/-- Settles O35: after a request of `+0` the delay registers are 0 and `+0`, and a single call is the integer delay 0. -/
theorem delayZeroIdentity : Obligations.DelayZeroIdentity := by
  intro s ctx x hinv ha
  obtain ⟨hv, hrs, ⟨hs, hl, -⟩, hap, hfault⟩ := hinv
  obtain ⟨n, f, hset, -, -, hsplit⟩ := dlSetdelayClampsAndSplits s ctx 0#64 hv ha isNaN_zero
  rw [if_pos (by rw [val_zero])] at hsplit
  obtain ⟨rfl, rfl⟩ := hsplit
  have hinv₀ : (s.afterDl ctx s.dl.store 0 0#64 s.nanDraws []).Inv :=
    ⟨hv, hrs, ⟨hs, hl, Nat.zero_le _, ⟨signBit_zero, mag_zero.trans_lt oneMag_pos⟩, fun _ => rfl⟩, hap, hfault⟩
  obtain ⟨t, y, hrun, hhead, hbits, hnum⟩ :=
    integerDelaysAreExact _ ctx [x] Nat.one_pos hinv₀ (accepts_afterDl ha ..) rfl
  refine ⟨t, y, by rw [execEach, hset]; exact hrun, hhead, hbits, fun hx hold => hnum ?_ hold⟩
  simpa using hx

end Sys2Proof.Machine

/-! PROOFS. The allpass (42_allpass.md): an accepted AP command answers what its run answers, in exactly the state `afterAp` names; a
sample written to a store is read back one turn of the window later, so a run of `AP.PROCESS` is the difference equation of R154. -/

namespace Sys2Proof.Machine

/-! ### The envelope round a run of the AP unit (R170) -/

/-- An accepted command answers the stores, the gain and the data its run answers. -/
theorem envelope_ap {s : State} {ctx : Ctx} {check : Option FaultCode} {run : State → Except Fault (State × List Item)} {ff fb : Store}
    {gain : Item} {draws : Nat} {q : List Item} (ha : s.Accepts .ap ctx) (hc : check = none)
    (hr : run (s.setOwner .ap { bound := true, ctx := ctx }) =
      .ok ((s.setAp { ff := ff, fb := fb, gain := gain, owner := { bound := true, ctx := ctx } }).setDraws draws, q)) :
    envelope .ap ctx check run s = .next (s.afterAp ctx ff fb gain draws q) :=
  envelope_run ha hc (by rw [bindOwner_of_accepts ha]; exact hr)

/-- A context whose AP command completed is let in again. -/
theorem accepts_afterAp {s : State} {ctx : Ctx} (ha : s.Accepts .ap ctx) (ff fb : Store) (gain : Item) (draws : Nat) (q : List Item) :
    (s.afterAp ctx ff fb gain draws q).Accepts .ap ctx :=
  ⟨ha.1, by simp [State.foreign, State.owner, State.afterAp]⟩

/-! ### The commands that compute nothing (R150, R151, R153) -/

/-- Settles O37: both resizes answer, the size being at least 1 (R105). -/
theorem apSetlenResizesBothStores : Obligations.ApSetlenResizesBothStores := by
  intro s ctx d ha h1 hd
  have hc : argCheck (.apSetlen ctx d) s = none := (argCheck_eq_none_iff _ s).2 ⟨h1, hd⟩
  exact envelope_ap (run := runSetLen d) ha hc (by rw [runSetLen, stResize_eq _ h1, stResize_eq _ h1]; rfl)

/-- Settles O38: there is no argument check, and the run writes the gain alone. -/
theorem apSetgainStoresUnchecked : Obligations.ApSetgainStoresUnchecked :=
  fun _ _ g ha => envelope_ap (run := runSetGain g) ha rfl rfl

/-- Settles O40: `st_clear` lists no item, and an unlisted slot reads zero (R106, R153). -/
theorem apClearZeroesBothStores : Obligations.ApClearZeroesBothStores :=
  fun _ _ ha => ⟨[], [], envelope_ap (run := runApClear) ha rfl rfl, fun p => ⟨Memory.read_nil p, Memory.read_nil p⟩⟩

/-! ### One call of `AP.PROCESS` (R152) -/

/-- The store that `st_write` leaves (R100). -/
def Store.pushed (S : Store) (v : Item) : Store :=
  { lsize := S.lsize, wc := (S.wc + 1) % S.lsize, items := S.items.write S.wc v }

theorem stWrite_eq_pushed {cap : Nat} {S : Store} (h : Store.Ok cap S) (v : Item) : stWrite cap S v = .ok (S.pushed v) :=
  stWrite_eq h v

/-- The item at the cursor, where the next write goes: the oldest in the window. -/
def Store.oldest (S : Store) : Item := S.items.read S.wc

/-- The output of `AP.PROCESS` at the input `x`. -/
def State.apOutput (s : State) (x : Item) : Item := allpassOut s.nanDraws s.ap.gain x s.ap.ff.oldest s.ap.fb.oldest

/-- `AP.PROCESS` pushes its input and its output, and answers the output. -/
theorem exec_apProcess {s : State} {ctx : Ctx} (x : Item) (h : ApUnit.Ok s.cfg s.ap) (ha : s.Accepts .ap ctx) :
    exec (.apProcess ctx x) s = .next (s.afterAp ctx (s.ap.ff.pushed x) (s.ap.fb.pushed (s.apOutput x)) s.ap.gain (s.nanDraws + 3)
      [s.apOutput x]) :=
  envelope_ap (run := runApProcess x) ha rfl (runApProcess_eq (s := s.setOwner .ap { bound := true, ctx := ctx }) x h)

/-- Pushing one item to each store keeps them in lock step (R26). -/
theorem apUnit_ok_pushed {c : Config} {ff fb : Store} {gain gain' : Item} {o o' : Owner} (x y : Item)
    (h : ApUnit.Ok c { ff := ff, fb := fb, gain := gain, owner := o }) :
    ApUnit.Ok c { ff := ff.pushed x, fb := fb.pushed y, gain := gain', owner := o' } := by
  obtain ⟨hff, hfb, hl, hwc⟩ := h
  exact ⟨stWrite_ok hff x, stWrite_ok hfb y, hl, congrArg₂ (fun wc lsize => (wc + 1) % lsize) hwc hl⟩

/-- Settles O39: the stores that `exec_apProcess` names, read after the write. -/
theorem apProcessReadsThenWrites : Obligations.ApProcessReadsThenWrites := by
  intro s ctx x hinv ha
  obtain ⟨-, -, -, hap, -⟩ := hinv
  have ⟨⟨_, _, _, hff, _⟩, ⟨_, _, _, hfb, _⟩, _⟩ := hap
  exact ⟨_, _, Memory.wf_write _ _ hff, Memory.wf_write _ _ hfb, fun p => Memory.read_write _ p _ hff,
    fun p => Memory.read_write _ p _ hfb, exec_apProcess x hap ha⟩

/-! ### Runs of `AP.PROCESS` (R154) -/

/-- What the store gives back at call `n` of a run that pushes `vs`, one item a call: the item pushed `LSIZE` calls earlier, or, in the
first `LSIZE` calls, an item that stood before the run. -/
def Store.delayed (S : Store) (vs : List Item) (n : Nat) : Item :=
  if n < S.lsize then S.itemOfAge (S.lsize - 1 - n) else vs.getD (n - S.lsize) 0#64

/-- The first call gives back the oldest item. -/
theorem delayed_zero {cap : Nat} {S : Store} (h : Store.Ok cap S) (vs : List Item) : S.delayed vs 0 = S.oldest := by
  obtain ⟨hpos, -, hwc, -, -⟩ := h
  have hturn : (S.wc : Int) + (-1 - (S.lsize - 1 - 0 : Nat)) + S.lsize = S.wc := by omega
  rw [Store.delayed, if_pos (by omega), Store.itemOfAge, ← Int.add_emod_right, hturn, Int.emod_eq_of_lt (by omega) (by omega),
    Int.toNat_natCast, Store.oldest]

/-- After the first push the rest of the run sees what it would have seen one call later (R53). -/
theorem delayed_succ {cap : Nat} {S : Store} (h : Store.Ok cap S) (v : Item) (vs : List Item) (n : Nat) :
    S.delayed (v :: vs) (n + 1) = (S.pushed v).delayed vs n := by
  obtain ⟨S₁, hw, -, hl, hnew, hold⟩ := stWrite_ages h v
  obtain rfl : S₁ = S.pushed v := Except.ok.inj (hw.symm.trans (stWrite_eq_pushed h v))
  simp only [Store.delayed, hl]
  rcases Nat.lt_trichotomy (n + 1) S.lsize with hlt | heq | hgt
  · have hage : S.lsize - 1 - n = S.lsize - 1 - (n + 1) + 1 := by omega
    rw [if_pos hlt, if_pos (by omega), hage, hold _ (by omega)]
  · rw [← heq, if_neg (by omega), if_pos (by omega), Nat.add_sub_cancel, Nat.sub_self, Nat.sub_self, hnew, List.getD_cons_zero]
  · rw [if_neg (by omega), if_neg (by omega), Nat.sub_add_comm (by omega), List.getD_cons_succ]

/-- Where every slot is zero, the calls before the first item comes round give `+0`. -/
theorem delayed_of_zeros {S : Store} (h : ∀ p, S.items.read p = 0#64) (vs : List Item) (n : Nat) :
    S.delayed vs n = if n < S.lsize then 0#64 else vs.getD (n - S.lsize) 0#64 := by
  rw [Store.delayed, Store.itemOfAge, h]

/-- A run of `AP.PROCESS` from any history: every call answers `allpassOut` of its input and of the delayed input and output. -/
theorem execEach_apProcess {ctx : Ctx} (xs : List Item) :
    ∀ {s : State}, ApUnit.Ok s.cfg s.ap → s.Accepts .ap ctx →
      ∃ (t : State) (ys : List Item), execEach (xs.map (Instr.apProcess ctx)) s = .next t ∧ ys.length = xs.length ∧
        t.port.outbox = (ys.map (fun y => okResponse [y])).reverse ++ s.port.outbox ∧
        ∀ n, n < xs.length → ys.getD n 0#64 =
          allpassOut (s.nanDraws + 3 * n) s.ap.gain (xs.getD n 0#64) (s.ap.ff.delayed xs n) (s.ap.fb.delayed ys n) := by
  induction xs with
  | nil => exact fun {s} _ _ => ⟨s, [], rfl, rfl, rfl, fun n hn => absurd hn (Nat.not_lt_zero n)⟩
  | cons x xs ih =>
    intro s h ha
    have ⟨hff, hfb, _⟩ := h
    obtain ⟨t, ys, hrun, hlen, hout, hys⟩ := ih (s := s.afterAp ctx (s.ap.ff.pushed x) (s.ap.fb.pushed (s.apOutput x)) s.ap.gain
      (s.nanDraws + 3) [s.apOutput x]) (apUnit_ok_pushed _ _ h) (accepts_afterAp ha ..)
    refine ⟨t, s.apOutput x :: ys, by rw [List.map_cons, execEach, exec_apProcess x h ha]; exact hrun, by simp [hlen],
      by simp [hout, State.afterAp], fun n hn => ?_⟩
    cases n with
    | zero => rw [delayed_zero hff, delayed_zero hfb]; rfl
    | succ n =>
      have hdraws : s.nanDraws + 3 * (n + 1) = s.nanDraws + 3 + 3 * n := by ring
      rw [delayed_succ hff, delayed_succ hfb, hdraws]
      exact hys n (Nat.lt_of_succ_lt_succ hn)

/-- Settles O41: a run from histories that are zero, the two stores being of one length (R26). -/
theorem allpassDifferenceEquation : Obligations.AllpassDifferenceEquation := by
  intro s ctx xs hinv ha hzero
  obtain ⟨-, -, -, hap, -⟩ := hinv
  have ⟨_, _, hl, _⟩ := hap
  obtain ⟨t, ys, hrun, hlen, hout, hys⟩ := execEach_apProcess xs hap ha
  refine ⟨t, ys, hrun, hlen, hout, fun n hn => ?_⟩
  have hy := hys n hn
  rw [delayed_of_zeros (fun p => (hzero p).1), delayed_of_zeros (fun p => (hzero p).2), ← hl] at hy
  exact hy

end Sys2Proof.Machine

/-! PROOFS. The envelope, faults and ownership (60_exceptions.md R170 to R178). What a command and a step can answer is said once, as one
case for each way of ending them (`ExecNext`, `StepNext`); each claim is then a case analysis. -/

namespace Sys2Proof.Machine

/-! ### Owners in the states that a fault, a refusal and an accepted event leave (R173, R174) -/

@[simp] theorem State.afterFault_owner (s : State) (code : BitVec 8) (u : UnitId) : (s.afterFault code).owner u = s.owner u := by
  cases u <;> rfl

@[simp] theorem State.afterHalted_owner (s : State) (u : UnitId) : s.afterHalted.owner u = s.owner u := by
  cases u <;> rfl

@[simp] theorem State.withInbox_owner (s : State) (rest : List HostEvent) (u : UnitId) : (s.withInbox rest).owner u = s.owner u := by
  cases u <;> rfl

@[simp] theorem State.respond_owner (s : State) (r : Response) (u : UnitId) : (s.respond r).owner u = s.owner u := by
  cases u <;> rfl

/-- Binding leaves the owner of every unit that is bound (R177). -/
theorem State.bindOwner_owner_of_bound (s : State) {u : UnitId} (h : (s.owner u).bound = true) (v : UnitId) (c : Ctx) :
    (s.bindOwner v c).owner u = s.owner u := by
  by_cases hu : u = v
  · subst hu
    rw [State.bindOwner, if_pos h]
  · exact s.bindOwner_owner_other v u c hu

theorem State.foreign_eq_true_iff {s : State} {u : UnitId} {c : Ctx} :
    s.foreign u c = true ↔ (s.owner u).bound = true ∧ (s.owner u).ctx ≠ c := by
  simp [State.foreign]

/-! ### The codes of R172 -/

theorem FaultCode.byte_injective : Function.Injective FaultCode.byte := by
  intro c d
  cases c <;> cases d <;> decide

/-- `F_OWNER` is no argument check's fault. -/
theorem argCheck_ne_owner (i : Instr) (s : State) : argCheck i s ≠ some .owner := by
  cases i <;> simp [argCheck, checkBlockLen, checkResize, checkIndex, checkDelay, checkLen]

/-! ### What a command can answer (R170) -/

/-- The next states a command can answer, by the step of R170 that ends it. -/
inductive ExecNext (i : Instr) (s : State) : State → Prop where
  | halted (hf : s.fault = true) : ExecNext i s s.afterHalted
  | foreign (hf : s.fault = false) (ho : s.foreign i.unit i.ctx = true) : ExecNext i s (s.afterFault FaultCode.owner.byte)
  | argument {c : FaultCode} (ha : s.Accepts i.unit i.ctx) (hc : argCheck i s = some c) : ExecNext i s (s.afterFault c.byte)
  | completed {t : State} {q : List Item} (ha : s.Accepts i.unit i.ctx) (hc : argCheck i s = none)
      (hr : RunFrame i.unit (s.bindOwner i.unit i.ctx) t) : ExecNext i s (t.respond (okResponse q))

theorem execNext_of_exec {i : Instr} {s t : State} (h : exec i s = .next t) : ExecNext i s t := by
  rw [exec_eq_envelope] at h
  obtain ⟨hf, rfl⟩ | ⟨hf, ho, rfl⟩ | ⟨ha, c, hc, rfl⟩ | ⟨ha, hc, t, q, hr, rfl⟩ := envelope_next_cases h
  · exact .halted hf
  · exact .foreign hf ho
  · exact .argument ha hc
  · exact .completed ha hc (runCommand_frame hr)

/-- A completed run leaves `FAULT` as it was, the binding before it included. -/
theorem runFrame_bindOwner_fault {u v : UnitId} {c : Ctx} {s t : State} (h : RunFrame v (s.bindOwner u c) t) : t.fault = s.fault :=
  h.fault.trans (s.bindOwner_fault u c)

/-- A command that leaves a running CORE halted entered one fault of R172 and did nothing else (R173). -/
theorem exec_faulted {i : Instr} {s t : State} (h : exec i s = .next t) (hs : s.fault = false) (ht : t.fault = true) :
    ∃ c : FaultCode, t = s.afterFault c.byte := by
  cases execNext_of_exec h with
  | halted hf => simp [hs] at hf
  | foreign => exact ⟨_, rfl⟩
  | argument => exact ⟨_, rfl⟩
  | completed _ _ hr => simp [runFrame_bindOwner_fault hr, hs] at ht

/-- A command that leaves CORE halted changes no owner; one that leaves it running was accepted and only bound its unit (R177). -/
theorem exec_owner_cases {i : Instr} {s t : State} (h : exec i s = .next t) :
    (t.fault = true ∧ ∀ u, t.owner u = s.owner u) ∨
    (t.fault = false ∧ s.Accepts i.unit i.ctx ∧ ∀ u, t.owner u = (s.bindOwner i.unit i.ctx).owner u) := by
  cases execNext_of_exec h with
  | halted hf => exact .inl ⟨hf, s.afterHalted_owner⟩
  | foreign => exact .inl ⟨rfl, s.afterFault_owner _⟩
  | argument => exact .inl ⟨rfl, s.afterFault_owner _⟩
  | completed ha _ hr =>
    have hf := (runFrame_bindOwner_fault hr).trans ha.1
    exact .inr ⟨hf, ha, fun u => (State.respond_owner ..).trans (hr.owner u)⟩

/-- Whatever a command does, a bound unit keeps its owner (R177). -/
theorem exec_owner_of_bound {i : Instr} {s t : State} (h : exec i s = .next t) {u : UnitId} (hb : (s.owner u).bound = true) :
    t.owner u = s.owner u := by
  rcases exec_owner_cases h with ⟨-, howner⟩ | ⟨-, -, howner⟩
  · exact howner u
  · exact (howner u).trans (s.bindOwner_owner_of_bound hb _ _)

/-! ### What a step can answer (R170, R184, R200) -/

/-- The next states a step can answer, by the event the host has pending. -/
inductive StepNext (s : State) : State → Prop where
  | idle (hi : s.port.inbox = []) : StepNext s s
  | reset {rest : List HostEvent} (hi : s.port.inbox = .reset :: rest) : StepNext s (resetEvent (s.withInbox rest))
  | halted {h : Word} {p : List Word} {rest : List HostEvent} (hi : s.port.inbox = .command h p :: rest) (hf : s.fault = true) :
      StepNext s (s.withInbox rest).afterHalted
  | illegal {h : Word} {p : List Word} {rest : List HostEvent} (hi : s.port.inbox = .command h p :: rest) (hf : s.fault = false) :
      StepNext s ((s.withInbox rest).afterFault FaultCode.illegal.byte)
  | command {h : Word} {p : List Word} {rest : List HostEvent} {i : Instr} {t : State} (hi : s.port.inbox = .command h p :: rest)
      (hf : s.fault = false) (hx : exec i (s.withInbox rest) = .next t) : StepNext s t

theorem stepNext_of_step {s t : State} (h : step s = .next t) : StepNext s t := by
  cases hv : cfgValid s.cfg with
  | false => cases (step_invalid hv).symm.trans h
  | true =>
    match hi : s.port.inbox with
    | [] => cases (step_idle hv hi).symm.trans h; exact .idle hi
    | .reset :: rest => cases (step_reset hv hi).symm.trans h; exact .reset hi
    | .command hw p :: rest =>
      cases hf : s.fault with
      | true => cases (step_halted hv hi hf).symm.trans h; exact .halted hi hf
      | false =>
        cases hd : decode hw p with
        | error e => cases (step_illegal hv hi hf hd).symm.trans h; exact .illegal hi hf
        | ok i => exact .command hi hf ((step_command hv hi hf hd).symm.trans h)

/-! ### The obligations -/

/-- Settles O11: fault entry at decoding, or in the command the step runs. -/
theorem faultEntryChangesNothingElse : Obligations.FaultEntryChangesNothingElse := by
  intro s t h p rest hi hs hstep ht
  cases stepNext_of_step hstep with
  | idle hi' => simp [hi] at hi'
  | reset hi' => simp [hi] at hi'
  | halted _ hf => simp [hs] at hf
  | illegal hi' =>
    obtain ⟨-, rfl⟩ := List.cons.inj (hi.symm.trans hi')
    exact ⟨_, rfl⟩
  | command hi' _ hx =>
    obtain ⟨-, rfl⟩ := List.cons.inj (hi.symm.trans hi')
    exact exec_faulted hx hs ht

/-- Settles O12: the other ends of a command are another code of R172 or a running CORE. -/
theorem foreignContextFaults : Obligations.ForeignContextFaults := by
  intro s i hs
  rw [← State.foreign_eq_true_iff]
  constructor
  · intro h
    generalize ht : s.afterFault 0x02#8 = t at h
    cases execNext_of_exec h with
    | halted hf => simp [hs] at hf
    | foreign _ ho => exact ho
    | argument _ hc =>
      have hcode := FaultCode.byte_injective (a₁ := .owner) (congrArg State.fcode ht)
      exact absurd (hcode ▸ hc) (argCheck_ne_owner i s)
    | completed _ _ hr =>
      have hrunning := (runFrame_bindOwner_fault hr).trans hs
      cases (congrArg State.fault ht).trans hrunning
  · intro ho
    rw [exec_eq_envelope, envelope_foreign hs ho]
    rfl

/-- Settles O13: only a completed command binds, and it binds its own unit to its own context. -/
theorem firstAcceptedCommandBindsTheOwner : Obligations.FirstAcceptedCommandBindsTheOwner := by
  refine ⟨fun s t i h => ?_, fun s t u h hreset hb => ?_⟩
  · rcases exec_owner_cases h with ⟨hf, howner⟩ | ⟨hf, ⟨-, ho⟩, howner⟩
    · exact ⟨by simp [hf], fun _ => howner _, fun _ => howner _, fun u _ => howner u⟩
    · exact ⟨fun _ => (howner _).trans (s.bindOwner_owner _ _ ho), by simp [hf], exec_owner_of_bound h,
        fun u hu => (howner u).trans (s.bindOwner_owner_other _ u _ hu)⟩
  · cases stepNext_of_step h with
    | idle => rfl
    | reset hi => simp [hi] at hreset
    | halted => simp
    | illegal => simp
    | command _ _ hx => simpa using exec_owner_of_bound hx (u := u) (by simpa using hb)

/-- Settles O14: an accepted command that does not complete was ended by its own argument check. -/
theorem commandFaultsExactlyOnItsArgument : Obligations.CommandFaultsExactlyOnItsArgument := by
  intro s i hinv ha
  obtain ⟨t, h⟩ := exec_answers hinv i
  refine ⟨t, h, ?_⟩
  rw [← argCheck_eq_none_iff]
  cases execNext_of_exec h with
  | halted hf => simp [ha.1] at hf
  | foreign _ ho => simp [ha.2] at ho
  | argument _ hc => simp [hc, State.afterFault]
  | completed _ hc hr => simp [hc, hr.fault, ha.1]

/-- Settles O9. -/
theorem stepRunsTheDecodedCommand : Obligations.StepRunsTheDecodedCommand :=
  fun _ _ _ _ _ hv hi hf hd => step_command hv hi hf hd

/-- Settles O10: the state `answerHalted` leaves is `afterHalted`, before decoding and in the envelope alike. -/
theorem haltedCoreExecutesNothing : Obligations.HaltedCoreExecutesNothing := by
  refine ⟨fun s h p rest hv hi hf => step_halted hv hi hf, fun s i hf => ?_, fun s t hf h hreset => ?_⟩
  · rw [exec_eq_envelope, envelope_halted hf]
    rfl
  · cases stepNext_of_step h with
    | idle => exact ⟨hf, rfl, rfl, rfl, rfl⟩
    | reset hi => simp [hi] at hreset
    | halted => exact ⟨hf, rfl, rfl, rfl, rfl⟩
    | illegal _ hrun => simp [hf] at hrun
    | command _ hrun => simp [hf] at hrun

/-- Settles O15: the four forms share one check. -/
theorem blockLongerThanWindowFaults : Obligations.BlockLongerThanWindowFaults := by
  rintro s ctx _ vs ha hn rfl
  have hc : checkBlockLen vs.length s = some .blockLen := if_pos hn
  exact ⟨exec_check_faults (i := .rsWriteb ctx vs) ha hc, exec_check_faults (i := .rsReadh ctx _) ha hc,
    exec_check_faults (i := .rsRead ctx _) ha hc, exec_check_faults (i := .rsReadt ctx _) ha hc⟩

/-- Settles O16. -/
theorem sizeOutOfRangeFaults : Obligations.SizeOutOfRangeFaults :=
  ⟨fun _ ctx n ha hn => exec_check_faults (i := .rsResize ctx n) ha (if_pos hn),
    fun _ ctx d ha hd => exec_check_faults (i := .apSetlen ctx d) ha (if_pos hd)⟩

/-- Settles O17. -/
theorem indexAndNaNDelayFault : Obligations.IndexAndNaNDelayFault :=
  ⟨fun _ ctx p ha hp => exec_check_faults (i := .rsItemat ctx p) ha (if_pos hp),
    fun _ ctx d ha hd => exec_check_faults (i := .dlSetdelay ctx d) ha (if_pos hd)⟩

/-- Settles O54. -/
theorem nothingPendingHoldsTheState : Obligations.NothingPendingHoldsTheState :=
  fun _ hv hi => step_idle hv hi

end Sys2Proof.Machine

/-! PROOFS. RESET (70_reset_and_hazards.md R200): what each field of the state is after it. That no other event clears `FAULT` or unbinds
an owner is what R174 and R177 already say of every step. -/

namespace Sys2Proof.Machine

/-! ### A store and an owner register at reset (R30) -/

@[simp] theorem Store.atReset_lsize (n : Nat) : (Store.atReset n).lsize = n := rfl
@[simp] theorem Store.atReset_wc (n : Nat) : (Store.atReset n).wc = 0 := rfl
@[simp] theorem Store.atReset_read (n p : Nat) : (Store.atReset n).items.read p = 0#64 := rfl
@[simp] theorem Owner.unbound_bound : Owner.unbound.bound = false := rfl

/-! ### The fields of the state a RESET event leaves (R200) -/

@[simp] theorem resetEvent_cfg (s : State) : (resetEvent s).cfg = s.cfg := rfl
@[simp] theorem resetEvent_rs_store (s : State) : (resetEvent s).rs.store = Store.atReset s.cfg.rsSize0 := rfl
@[simp] theorem resetEvent_rs_owner (s : State) : (resetEvent s).rs.owner = Owner.unbound := rfl
@[simp] theorem resetEvent_dl_store (s : State) : (resetEvent s).dl.store = Store.atReset (s.cfg.dlMaxd + s.cfg.dlGuard) := rfl
@[simp] theorem resetEvent_dl_delay (s : State) :
    ((resetEvent s).dl.dint, (resetEvent s).dl.dfrac) = clampSplit 0 s.cfg.dlMaxd s.cfg.dlDelay0 := rfl
@[simp] theorem resetEvent_dl_owner (s : State) : (resetEvent s).dl.owner = Owner.unbound := rfl
@[simp] theorem resetEvent_ap_ff (s : State) : (resetEvent s).ap.ff = Store.atReset s.cfg.apLen0 := rfl
@[simp] theorem resetEvent_ap_fb (s : State) : (resetEvent s).ap.fb = Store.atReset s.cfg.apLen0 := rfl
@[simp] theorem resetEvent_ap_gain (s : State) : (resetEvent s).ap.gain = s.cfg.apGain0 := rfl
@[simp] theorem resetEvent_ap_owner (s : State) : (resetEvent s).ap.owner = Owner.unbound := rfl
@[simp] theorem resetEvent_fault (s : State) : (resetEvent s).fault = false := rfl
@[simp] theorem resetEvent_fcode (s : State) : (resetEvent s).fcode = 0x00#8 := rfl
@[simp] theorem resetEvent_nanDraws (s : State) : (resetEvent s).nanDraws = s.nanDraws := rfl
@[simp] theorem resetEvent_port (s : State) : (resetEvent s).port = s.port := rfl

/-! ### A step without RESET (R174, R177) -/

/-- Without RESET a halted CORE stays halted (R174) and a bound unit keeps its owner (R177). -/
theorem step_keeps_fault_and_bound {s t : State} (h : step s = .next t) (hreset : s.port.inbox.head? ≠ some .reset) :
    (s.fault = true → t.fault = true) ∧ ∀ u, (s.owner u).bound = true → (t.owner u).bound = true := by
  obtain ⟨-, -, halted_step⟩ := haltedCoreExecutesNothing
  obtain ⟨-, bound_step⟩ := firstAcceptedCommandBindsTheOwner
  refine ⟨fun hf => (halted_step s t hf h hreset).1, fun u hb => ?_⟩
  rw [bound_step s t u h hreset hb, hb]

/-! ### The obligations -/

/-- Settles O46: the step is RESET's, and each row of R30 is a field of the state it leaves. -/
theorem resetGivesTheResetState : Obligations.ResetGivesTheResetState := by
  refine ⟨fun s t h hreset => step_keeps_fault_and_bound h hreset, fun s rest hv hi => ⟨_, step_reset hv hi, ?_⟩⟩
  simp

/-- Settles O47. -/
theorem resetLeavesThePortAndTheDraws : Obligations.ResetLeavesThePortAndTheDraws :=
  fun _ _ hv hi => ⟨_, step_reset hv hi, resetEvent_port _, resetEvent_nanDraws _⟩

end Sys2Proof.Machine

/-! PROOFS. The round trips (30_encoding.md R71 to R80). `encode_of_decode` says that no bit is dropped; what is left is that each operand
read fits the field it was read from. -/

namespace Sys2Proof

/-- Operands read from a header and its payload fit their fields (R73). -/
theorem wf_of_decodeOperands {op : Opcode} {c : Ctx} {a : Arg} {p : List Word} {i : Instr} (h : decodeOperands op c a p = .ok i) :
    i.wf = true := by
  have hn : FitsUnsigned a.toNat := a.isLt
  have hk : FitsSigned a.toInt := ⟨a.le_toInt, a.toInt_lt⟩
  cases op with
  | rsClear | dlClear | apClear =>
    obtain ⟨-, rfl⟩ := decodeH0_eq_ok.1 h
    rfl
  | rsReadh | rsReadt | rsResize | rsItemat | apSetlen =>
    obtain ⟨-, rfl⟩ := decodeHA_eq_ok.1 h
    exact decide_eq_true hn
  | rsReadat =>
    obtain ⟨-, rfl⟩ := decodeHA_eq_ok.1 h
    exact decide_eq_true hk
  | rsWrite | dlSetdelay | dlProcess | apSetgain | apProcess =>
    obtain ⟨-, v, -, rfl⟩ := decodeHP_eq_ok.1 h
    rfl
  | rsWriteb =>
    obtain ⟨hp, rfl⟩ := decodeHB_eq_ok.1 h
    exact decide_eq_true (hp ▸ hn)

theorem wf_of_decode {h : Word} {p : List Word} {i : Instr} (hd : decode h p = .ok i) : i.wf = true := by
  obtain ⟨op, -, -, hops⟩ := decode_eq_ok_iff.1 hd
  exact wf_of_decodeOperands hops

/-- Settles O1: each command's operands survive their fields. -/
theorem decodeOfEncodeIsTheCommand : Obligations.DecodeOfEncodeIsTheCommand := by
  intro i
  cases i with
  | rsWrite c v => exact Laws.RoundTrip.rsWrite c v
  | rsWriteb c vs => exact Laws.RoundTrip.rsWriteb c vs
  | rsReadh c n => exact Laws.RoundTrip.rsReadh c n
  | rsRead c n => exact Laws.RoundTrip.rsRead c n
  | rsReadt c n => exact Laws.RoundTrip.rsReadt c n
  | rsReadat c k => exact Laws.RoundTrip.rsReadat c k
  | rsResize c n => exact Laws.RoundTrip.rsResize c n
  | rsClear c => exact Laws.RoundTrip.rsClear c
  | rsItemat c p => exact Laws.RoundTrip.rsItemat c p
  | dlSetdelay c d => exact Laws.RoundTrip.dlSetdelay c d
  | dlProcess c x => exact Laws.RoundTrip.dlProcess c x
  | dlClear c => exact Laws.RoundTrip.dlClear c
  | apSetlen c d => exact Laws.RoundTrip.apSetlen c d
  | apSetgain c g => exact Laws.RoundTrip.apSetgain c g
  | apProcess c x => exact Laws.RoundTrip.apProcess c x
  | apClear c => exact Laws.RoundTrip.apClear c

/-- Settles O2. -/
theorem encodeOfDecodeIsTheWords : Obligations.EncodeOfDecodeIsTheWords :=
  fun _ _ _ hd => ⟨wf_of_decode hd, encode_of_decode hd⟩

end Sys2Proof

/-! PROOFS. The machine's invariant (10_state.md R21, R24, R26, R28, R32): the reset state of a valid configuration meets it and every step
keeps it. A run changes no unit but its own (`RunFrame`), so for each command only its own unit's invariant is to be shown. -/

namespace Sys2Proof.Machine

/-! ### The reset state (R30) -/

theorem Store.ok_atReset {cap n : Nat} (h1 : 1 ≤ n) (h2 : n ≤ cap) : Store.Ok cap (Store.atReset n) :=
  ⟨h1, h2, h1, rfl, rfl⟩

/-- A split request leaves the delay registers in range (R24, R32). -/
theorem dlUnit_ok_clampSplit {c : Config} (hv : cfgValid c = true) (k : Nat) {d : Item} (hd : isNaN d = false) {S : Store}
    (hS : Store.Ok (dlCap c) S) (hl : S.lsize = dlCap c) (o : Owner) :
    DlUnit.Ok c { store := S, dint := (clampSplit k c.dlMaxd d).1, dfrac := (clampSplit k c.dlMaxd d).2, owner := o } := by
  obtain ⟨-, hmag, hsign, -, hmax, htop⟩ := clampSplit_exact k (dlMaxd_le_maxCap hv) hd
  exact ⟨hS, hl, hmax, ⟨hsign, hmag ▸ Nat.mod_lt _ oneMag_pos⟩, htop⟩

/-- Settles O49: the bounds on the sizes are those of `cfgValid`, and the delay registers are a split request's. -/
theorem resetStateMeetsTheInvariant : Obligations.ResetStateMeetsTheInvariant := by
  intro c hv
  have hdl : 1 ≤ dlCap c := (Nat.zero_le _).trans_lt (dlMaxd_lt_dlCap hv)
  have hbounds := hv
  simp only [cfgValid, Bool.and_eq_true, decide_eq_true_eq, Bool.not_eq_true'] at hbounds
  obtain ⟨⟨⟨⟨⟨⟨-, hrs1, hrs⟩, -⟩, -⟩, hdelay⟩, -⟩, hap1, hap⟩ := hbounds
  exact ⟨hv, Store.ok_atReset hrs1 hrs, dlUnit_ok_clampSplit hv 0 hdelay (Store.ok_atReset hdl le_rfl) rfl _,
    ⟨Store.ok_atReset hap1 hap, Store.ok_atReset hap1 hap, rfl, rfl⟩, rfl⟩

/-- Settles O50: `CFG-A` is valid. -/
theorem fixedResetStateMeetsTheInvariant : Obligations.FixedResetStateMeetsTheInvariant :=
  resetStateMeetsTheInvariant Config.cfgA (by decide)

/-! ### The unit a command runs on -/

/-- One unit's part of the invariant. -/
def State.UnitOk (s : State) : UnitId → Prop
  | .rs => Store.Ok s.cfg.rsCap s.rs.store
  | .dl => DlUnit.Ok s.cfg s.dl
  | .ap => ApUnit.Ok s.cfg s.ap

/-- A run that leaves its own unit in order keeps the invariant. -/
theorem RunFrame.inv {u : UnitId} {s t : State} (hr : RunFrame u s t) (h : s.Inv) (hu : t.UnitOk u) : t.Inv := by
  obtain ⟨hv, hrs, hdl, hap, hfault⟩ := h
  have hf : t.FaultOk := by simpa only [State.FaultOk, hr.fault, hr.fcode] using hfault
  rw [← hr.cfg] at hv hrs hdl hap
  cases u with
  | rs => exact ⟨hv, hu, hr.dl nofun ▸ hdl, hr.ap nofun ▸ hap, hf⟩
  | dl => exact ⟨hv, hr.rs nofun ▸ hrs, hu, hr.ap nofun ▸ hap, hf⟩
  | ap => exact ⟨hv, hr.rs nofun ▸ hrs, hr.dl nofun ▸ hdl, hu, hf⟩

/-- A primitive that answers a store in order leaves the RS unit in order. -/
theorem runRsWrite_unitOk {f : Nat → Store → Except Fault Store} {s t : State} {q : List Item} {S : Store}
    (h : runRsWrite f s = .ok (t, q)) (hf : f s.cfg.rsCap s.rs.store = .ok S) (hS : Store.Ok s.cfg.rsCap S) : t.UnitOk .rs := by
  simp only [runRsWrite, hf, bind, Except.bind, pure, Except.pure, Except.ok.injEq, Prod.mk.injEq] at h
  obtain ⟨rfl, -⟩ := h
  exact hS

theorem runSetLen_unitOk {s t : State} {d : Nat} {q : List Item} (h : ApUnit.Ok s.cfg s.ap) (h1 : 1 ≤ d) (h2 : d ≤ s.cfg.apCap)
    (hr : runSetLen d s = .ok (t, q)) : t.UnitOk .ap := by
  obtain ⟨hff, hfb, -, hwc⟩ := h
  simp only [runSetLen, stResize_eq _ h1, bind, Except.bind, pure, Except.pure, Except.ok.injEq, Prod.mk.injEq] at hr
  obtain ⟨rfl, -⟩ := hr
  exact ⟨stResize_ok hff h1 h2, stResize_ok hfb h1 h2, rfl, congrArg (· % d) hwc⟩

/-- Where its argument check passes, a command's run leaves its unit in order. -/
theorem runCommand_unitOk {i : Instr} {s t : State} {q : List Item} (h : s.Inv) (ha : ArgOk s i) (hr : runCommand i s = .ok (t, q)) :
    t.UnitOk i.unit := by
  obtain ⟨hv, hrs, hdl, hap, -⟩ := h
  unfold runCommand at hr
  cases i with
  | rsWrite c v => exact runRsWrite_unitOk hr (stWrite_eq hrs v) (stWrite_ok hrs v)
  | rsWriteb c vs =>
    obtain ⟨m, hw, -, hok⟩ := stWriteBlock_total hrs vs
    exact runRsWrite_unitOk hr hw hok
  | rsReadh | rsRead | rsReadt | rsReadat | rsItemat =>
    obtain rfl := runRsRead_frame hr
    exact hrs
  | rsResize c n => exact runRsWrite_unitOk hr (stResize_eq _ ha.1) (stResize_ok hrs ha.1 ha.2)
  | rsClear c => exact runRsWrite_unitOk hr rfl (stClear_ok hrs)
  | dlSetdelay c d =>
    cases hr
    obtain ⟨hs, hl, -⟩ := hdl
    exact dlUnit_ok_clampSplit hv _ ha hs hl _
  | dlProcess c x =>
    cases (runDlProcess_eq x hdl).symm.trans hr
    obtain ⟨hs, hl, hregs⟩ := hdl
    exact ⟨hl ▸ stWrite_ok hs x, rfl, hregs⟩
  | dlClear c =>
    cases hr
    obtain ⟨hs, hregs⟩ := hdl
    exact ⟨stClear_ok hs, hregs⟩
  | apSetlen c d => exact runSetLen_unitOk hap ha.1 ha.2 hr
  | apSetgain c g =>
    cases hr
    exact hap
  | apProcess c x =>
    cases (runApProcess_eq x hap).symm.trans hr
    exact apUnit_ok_pushed _ _ hap
  | apClear c =>
    cases hr
    obtain ⟨hff, hfb, hlock⟩ := hap
    exact ⟨stClear_ok hff, stClear_ok hfb, hlock⟩

/-! ### Every step keeps the invariant -/

/-- Fault entry leaves `FAULT` set with a code of R172 (R28, R173). -/
theorem State.Inv.raiseFault {s : State} (h : s.Inv) (c : FaultCode) : (raiseFault c s).Inv := by
  obtain ⟨hv, hrs, hdl, hap, -⟩ := h
  have hcode : 1 ≤ c.byte.toNat ∧ c.byte.toNat ≤ 7 := by cases c <;> decide
  exact ⟨hv, hrs, hdl, hap, hcode⟩

theorem State.Inv.answerHalted {s : State} (h : s.Inv) : (answerHalted s).Inv := h

theorem State.Inv.respond {s : State} (h : s.Inv) (r : Response) : (s.respond r).Inv := h

theorem State.Inv.resetEvent {s : State} (h : s.Inv) : (resetEvent s).Inv :=
  resetStateMeetsTheInvariant s.cfg h.1

/-- However a command ends (R170), it keeps the invariant. -/
theorem exec_inv {i : Instr} {s t : State} (h : s.Inv) (hx : exec i s = .next t) : t.Inv := by
  rw [exec_eq_envelope] at hx
  obtain ⟨-, rfl⟩ | ⟨-, -, rfl⟩ | ⟨-, c, -, rfl⟩ | ⟨-, hc, t, q, hr, rfl⟩ := envelope_next_cases hx
  · exact h.answerHalted
  · exact h.raiseFault .owner
  · exact h.raiseFault c
  · have hb := h.bindOwner i.unit i.ctx
    have harg : ArgOk (s.bindOwner i.unit i.ctx) i := (argOk_bindOwner ..).2 ((argCheck_eq_none_iff i s).1 hc)
    exact ((runCommand_frame hr).inv hb (runCommand_unitOk hb harg hr)).respond _

/-- Settles O51: case by case on what a step can answer. -/
theorem everyStepKeepsTheInvariant : Obligations.EveryStepKeepsTheInvariant := by
  intro s t h hstep
  cases stepNext_of_step hstep with
  | idle => exact h
  | reset => exact (h.setInbox _).resetEvent
  | halted => exact (h.setInbox _).answerHalted
  | illegal => exact (h.setInbox _).raiseFault .illegal
  | command _ _ hx => exact exec_inv (h.setInbox _) hx

end Sys2Proof.Machine

/-! PROOFS. The free NaNs (93_implementation_defined.md U4): the numbers of `nanOfIndex` count the nonzero fractions, sign by sign; and the
operations read nothing of a NaN operand but that it is one, so which NaN was drawn is seen nowhere else. -/

namespace Sys2Proof.Machine

/-! ### All NaNs and nothing else -/

theorem isNaN_iff (w : Item) : isNaN w = true ↔ expField w = 2047 ∧ fracField w ≠ 0 := by
  simp [isNaN]

/-- The word with this sign, the exponent of a NaN and this fraction. -/
def nanWord (neg : Bool) (frac : Nat) : Item :=
  BitVec.ofNat 64 (if neg then 9223372036854775808 + (9218868437227405312 + frac) else 9218868437227405312 + frac)

theorem isNaN_nanWord (neg : Bool) {frac : Nat} (h0 : frac ≠ 0) (h : frac < 4503599627370496) : isNaN (nanWord neg frac) = true := by
  obtain ⟨-, hexp, hfrac⟩ := fields_ofNat neg (body := 9218868437227405312 + frac) (by omega)
  rw [isNaN_iff, nanWord, hexp, hfrac]
  omega

/-- A NaN is its sign and its fraction. -/
theorem nanWord_of_isNaN {w : Item} (h : isNaN w = true) : nanWord (signBit w) (fracField w) = w := by
  obtain ⟨hexp, -⟩ := (isNaN_iff w).1 h
  have hw := toNat_fields w
  rw [hexp] at hw
  apply BitVec.eq_of_toNat_eq
  have hlt := fracField_lt w
  rw [nanWord, BitVec.toNat_ofNat, hw]
  split <;> omega

/-- The first half of the numbers are the fractions from 1 on with sign 0, the second half those with sign 1. -/
theorem nanOfIndex_eq_nanWord (i : Fin nanCount) :
    nanOfIndex i = if i.val < 4503599627370495 then nanWord false (i.val + 1) else nanWord true (i.val - 4503599627370495 + 1) := by
  rw [nanOfIndex, nanWord, nanWord, if_neg Bool.false_ne_true, if_pos rfl]
  split
  · rw [show 9218868437227405313 + i.val = 9218868437227405312 + (i.val + 1) by omega]
  · rw [show 18442240474082181121 + (i.val - 4503599627370495) =
      9223372036854775808 + (9218868437227405312 + (i.val - 4503599627370495 + 1)) by omega]

/-- Settles O44: the number of a NaN is its fraction less 1, past all the positive ones where its sign is set. -/
theorem freeNaNsAreExactlyTheNaNs : Obligations.FreeNaNsAreExactlyTheNaNs := by
  refine ⟨fun i => ?_, fun w hw => ?_⟩
  · rw [nanOfIndex_eq_nanWord]
    split
    · exact isNaN_nanWord _ (by omega) (by omega)
    · exact isNaN_nanWord _ (by omega) (by have := i.isLt; unfold nanCount at this; omega)
  · obtain ⟨-, h0⟩ := (isNaN_iff w).1 hw
    have hlt := fracField_lt w
    rw [← nanWord_of_isNaN hw]
    cases signBit w with
    | false =>
      refine ⟨⟨fracField w - 1, by unfold nanCount; omega⟩, ?_⟩
      rw [nanOfIndex_eq_nanWord, if_pos (show fracField w - 1 < 4503599627370495 by omega),
        Nat.sub_add_cancel (Nat.pos_of_ne_zero h0)]
    | true =>
      refine ⟨⟨4503599627370495 + (fracField w - 1), by unfold nanCount; omega⟩, ?_⟩
      rw [nanOfIndex_eq_nanWord, if_neg (show ¬ 4503599627370495 + (fracField w - 1) < 4503599627370495 by omega),
        Nat.add_sub_cancel_left, Nat.sub_add_cancel (Nat.pos_of_ne_zero h0)]

theorem isNaN_drawNaN (k : Nat) : isNaN (drawNaN k) = true := by
  obtain ⟨hnan, -⟩ := freeNaNsAreExactlyTheNaNs
  exact hnan _

/-! ### Which NaN an operand is makes no difference -/

/-- The same sample, but for which NaN it is. -/
def SameUpToNaN (a b : Item) : Prop := a = b ∨ isNaN a = true ∧ isNaN b = true

theorem SameUpToNaN.refl (a : Item) : SameUpToNaN a a := .inl rfl

theorem SameUpToNaN.drawNaN (k k' : Nat) : SameUpToNaN (drawNaN k) (drawNaN k') := .inr ⟨isNaN_drawNaN k, isNaN_drawNaN k'⟩

theorem SameUpToNaN.isNaN_eq {a b : Item} (h : SameUpToNaN a b) : isNaN a = isNaN b := by
  obtain rfl | ⟨ha, hb⟩ := h
  · rfl
  · rw [ha, hb]

theorem SameUpToNaN.eq_of_isNaN_false {a b : Item} (h : SameUpToNaN a b) (ha : isNaN a = false) : a = b :=
  h.resolve_right fun hnan => by simp [ha] at hnan

theorem SameUpToNaN.fneg {a b : Item} (h : SameUpToNaN a b) : SameUpToNaN (fneg a) (fneg b) := by
  simpa only [SameUpToNaN, isNaN_fneg] using Or.imp_left (congrArg Machine.fneg) h

section Operations

variable {a a' b b' : Item}

/-- An operation that answers a drawn NaN for every NaN operand, and otherwise a drawn NaN or a value the draw has no part in. -/
theorem SameUpToNaN.of_operation {op : Nat → Item → Item → Item}
    (hnan : ∀ k a b, (isNaN a || isNaN b) = true → op k a b = Machine.drawNaN k)
    (hdraw : ∀ k k' a b, SameUpToNaN (op k a b) (op k' a b))
    (ha : SameUpToNaN a a') (hb : SameUpToNaN b b') (k k' : Nat) : SameUpToNaN (op k a b) (op k' a' b') := by
  cases hab : isNaN a || isNaN b with
  | true =>
    have hab' : (isNaN a' || isNaN b') = true := by rw [← ha.isNaN_eq, ← hb.isNaN_eq, hab]
    rw [hnan k a b hab, hnan k' a' b' hab']
    exact .drawNaN k k'
  | false =>
    obtain ⟨hna, hnb⟩ := Bool.or_eq_false_iff.1 hab
    rw [← ha.eq_of_isNaN_false hna, ← hb.eq_of_isNaN_false hnb]
    exact hdraw k k' a b

theorem SameUpToNaN.fadd (ha : SameUpToNaN a a') (hb : SameUpToNaN b b') (k k' : Nat) : SameUpToNaN (fadd k a b) (fadd k' a' b') := by
  refine of_operation (op := Machine.fadd) (fun k a b h => if_pos h) (fun k k' a b => ?_) ha hb k k'
  unfold Machine.fadd
  split
  · exact .drawNaN k k'
  · split
    · split
      · exact .drawNaN k k'
      · exact .refl _
    · exact .refl _

theorem SameUpToNaN.fmul (ha : SameUpToNaN a a') (hb : SameUpToNaN b b') (k k' : Nat) : SameUpToNaN (fmul k a b) (fmul k' a' b') := by
  refine of_operation (op := Machine.fmul) (fun k a b h => if_pos h) (fun k k' a b => ?_) ha hb k k'
  simp only [Machine.fmul]
  split
  · exact .drawNaN k k'
  · split
    · split
      · exact .drawNaN k k'
      · exact .refl _
    · exact .refl _

theorem SameUpToNaN.fsub (ha : SameUpToNaN a a') (hb : SameUpToNaN b b') (k k' : Nat) : SameUpToNaN (fsub k a b) (fsub k' a' b') :=
  ha.fadd hb.fneg k k'

end Operations

theorem sameUpToNaN_allpassOut (k k' : Nat) (g x x1 y1 : Item) : SameUpToNaN (allpassOut k g x x1 y1) (allpassOut k' g x x1 y1) :=
  (SameUpToNaN.refl x1).fadd ((SameUpToNaN.refl g).fmul ((SameUpToNaN.refl x).fsub (.refl y1) _ _) _ _) _ _

theorem sameUpToNaN_interpLinear (k k' : Nat) (a b c d f : Item) :
    SameUpToNaN (interpLinear k a b c d f) (interpLinear k' a b c d f) :=
  ((((SameUpToNaN.refl f64One).fsub (.refl f) _ _).fmul (.refl b) _ _).fadd ((SameUpToNaN.refl f).fmul (.refl c) _ _)) _ _

/-- Settles O45: both outputs are made of operations that keep `SameUpToNaN`. -/
theorem drawsOnlyChooseTheNaN : Obligations.DrawsOnlyChooseTheNaN := by
  intro k k' a b c d f
  have hap := sameUpToNaN_allpassOut k k' a b c d
  have hdl := sameUpToNaN_interpLinear k k' a b c d f
  exact ⟨⟨hap.isNaN_eq, hap.eq_of_isNaN_false⟩, hdl.isNaN_eq, hdl.eq_of_isNaN_false⟩

end Sys2Proof.Machine

/-! PROOFS. The answer to a command and its frame (10_state.md R22 to R31, 30_encoding.md R70, R76): however a command ends, it gives one
response, and it writes its own unit at most. -/

namespace Sys2Proof.Machine

/-! ### One response (R70, R76) -/

/-- A response whose status is not `OK` has no data (R76). -/
def Response.DataOnlyIfOk (r : Response) : Prop := r.w.extractLsb' 56 8 ≠ 0#8 → r.q = []

theorem dataOnlyIfOk_of_no_data (w : Word) : Response.DataOnlyIfOk { w := w, q := [] } := fun _ => rfl

theorem dataOnlyIfOk_okResponse (q : List Word) : (okResponse q).DataOnlyIfOk := by
  intro hstatus
  refine absurd ?_ hstatus
  rw [okResponse, statusWord, BitVec.extractLsb'_append_eq_of_le (by norm_num), BitVec.extractLsb'_append_eq_left]

/-- `t` is left by giving the host one response, the pending events as they were. -/
def RespondsOnce (s t : State) : Prop :=
  ∃ r : Response, t.port = { s.port with outbox := r :: s.port.outbox } ∧ r.DataOnlyIfOk

theorem respondsOnce_afterHalted (s : State) : RespondsOnce s s.afterHalted := ⟨_, rfl, dataOnlyIfOk_of_no_data _⟩

theorem respondsOnce_afterFault (s : State) (code : BitVec 8) : RespondsOnce s (s.afterFault code) :=
  ⟨_, rfl, dataOnlyIfOk_of_no_data _⟩

theorem exec_respondsOnce {i : Instr} {s t : State} (h : exec i s = .next t) : RespondsOnce s t := by
  cases execNext_of_exec h with
  | halted => exact respondsOnce_afterHalted s
  | foreign => exact respondsOnce_afterFault s _
  | argument => exact respondsOnce_afterFault s _
  | @completed t q _ _ hr => exact ⟨okResponse q, by simp [hr.port], dataOnlyIfOk_okResponse q⟩

/-- A step that accepts a command takes it from the inbox and gives its one response. -/
theorem step_respondsOnce {s t : State} {h : Word} {p : List Word} {rest : List HostEvent} (hstep : step s = .next t)
    (hi : s.port.inbox = .command h p :: rest) : RespondsOnce (s.withInbox rest) t := by
  cases stepNext_of_step hstep with
  | idle hi' => simp [hi] at hi'
  | reset hi' => simp [hi] at hi'
  | halted hi' =>
    obtain ⟨-, rfl⟩ := List.cons.inj (hi.symm.trans hi')
    exact respondsOnce_afterHalted _
  | illegal hi' =>
    obtain ⟨-, rfl⟩ := List.cons.inj (hi.symm.trans hi')
    exact respondsOnce_afterFault _ _
  | command hi' _ hx =>
    obtain ⟨-, rfl⟩ := List.cons.inj (hi.symm.trans hi')
    exact exec_respondsOnce hx

/-- Settles O53: the step answers a next state, and in it one response more. -/
theorem oneResponseForEachCommand : Obligations.OneResponseForEachCommand := by
  intro s h p rest hinv hi
  obtain ⟨t, hstep⟩ := everyStepAnswersANextState s hinv
  obtain ⟨r, hport, hdata⟩ := step_respondsOnce hstep hi
  exact ⟨t, r, hstep, hport, hdata⟩

/-! ### No unit but its own (R22, R23, R25) -/

/-- Binding writes the owner of the command's unit alone (R177). -/
theorem State.bindOwner_units_of_ne (s : State) (u : UnitId) (c : Ctx) :
    (u ≠ .rs → (s.bindOwner u c).rs = s.rs) ∧ (u ≠ .dl → (s.bindOwner u c).dl = s.dl) ∧
      (u ≠ .ap → (s.bindOwner u c).ap = s.ap) := by
  obtain ⟨⟨rs_dl, rs_ap⟩, ⟨dl_rs, dl_ap⟩, ap_rs, ap_dl⟩ := s.bindOwner_other_units c
  cases u with
  | rs => exact ⟨fun hu => absurd rfl hu, fun _ => rs_dl, fun _ => rs_ap⟩
  | dl => exact ⟨fun _ => dl_rs, fun hu => absurd rfl hu, fun _ => dl_ap⟩
  | ap => exact ⟨fun _ => ap_rs, fun _ => ap_dl, fun hu => absurd rfl hu⟩

/-- Settles O55: a completed command binds and runs its own unit alone, and every other end leaves all units. -/
theorem commandWritesOnlyItsUnit : Obligations.CommandWritesOnlyItsUnit := by
  intro s t i h
  obtain ⟨r, hport, -⟩ := exec_respondsOnce h
  have hinbox : t.port.inbox = s.port.inbox := by rw [hport]
  cases execNext_of_exec h with
  | halted | foreign | argument => exact ⟨fun _ => rfl, fun _ => rfl, fun _ => rfl, rfl, hinbox⟩
  | completed _ _ hr =>
    obtain ⟨hrs, hdl, hap⟩ := s.bindOwner_units_of_ne i.unit i.ctx
    exact ⟨fun hu => (hr.rs hu).trans (hrs hu), fun hu => (hr.dl hu).trans (hdl hu), fun hu => (hr.ap hu).trans (hap hu),
      hr.cfg.trans (s.bindOwner_cfg ..), hinbox⟩

end Sys2Proof.Machine
